-- ==== Sys2Proof/Word.lean ====
section
/-! DEFINITION. The word types of the engine, with the widths of spec/00_scope.md R7. -/

namespace Sys2Proof

/-- A value of XLEN = 32 bits: a register, an ALU operand or result, an immediate, a register-index field (R7, R8). -/
abbrev Word := BitVec 32

/-- A program counter or program length: PCW = 32 bits, unsigned (R7, R27, R32). -/
abbrev PcWord := BitVec 32

/-- A label tag: LABEL_W = 64 bits (R7, R74). -/
abbrev Tag := BitVec 64

/-- An instruction word: ILEN = 192 bits (R7, R70). -/
abbrev IWord := BitVec 192

/-- One byte, of a serialised word (R82) or of assembly text (R90). -/
abbrev Byte := BitVec 8

/-- `MIN` of R8, the least value a register holds. -/
def minInt : Int := -2147483648

/-- `MAX` of R8, the greatest value a register holds. -/
def maxInt : Int := 2147483647

end Sys2Proof
end

