-- ==== Sys2Proof/Syntax.lean ====
section
/-! DEFINITION. The seven instructions as terms (spec/30_encoding.md R83): one constructor per row of the opcode table. -/

namespace Sys2Proof

/-- The abstract instruction type of R83, with `Label` the 64-bit tag. `lbl` is the instruction's own label tag; `r` is a
destination and `s1`, `s2` are source register indices, all 32 bits of their fields (R76); `x` is an immediate (R75);
`target` is the branch label `L` (R77). -/
inductive Instr where
  /-- `add r s1 s2` (R132) -/
  | add (lbl : Tag) (r s1 s2 : Word)
  /-- `sub r s1 s2` (R133) -/
  | sub (lbl : Tag) (r s1 s2 : Word)
  /-- `mul r s1 s2` (R134) -/
  | mul (lbl : Tag) (r s1 s2 : Word)
  /-- `div r s1 s2` (R135) -/
  | div (lbl : Tag) (r s1 s2 : Word)
  /-- `out s1` (R150) -/
  | out (lbl : Tag) (s1 : Word)
  /-- `lin r x` (R120) -/
  | lin (lbl : Tag) (r x : Word)
  /-- `bnz s1 L` (R160) -/
  | bnz (lbl : Tag) (s1 : Word) (target : Tag)
  deriving DecidableEq, Repr

/-- The instruction's own label tag. -/
def Instr.lbl : Instr → Tag
  | .add l _ _ _ => l
  | .sub l _ _ _ => l
  | .mul l _ _ _ => l
  | .div l _ _ _ => l
  | .out l _ => l
  | .lin l _ _ => l
  | .bnz l _ _ => l

end Sys2Proof
end

