-- ==== Sys2Proof/Decode.lean ====
section
/-! DEFINITION. The instruction word, its decoder and its encoder (spec/30_encoding.md Part A, R70 to R84). -/

namespace Sys2Proof

/-! ### Fields of the word (R71) -/

/-- `iw[191:128]`, the label tag. -/
def lblField (iw : IWord) : Tag := iw.extractLsb' 128 64

/-- `iw[127:96]`, the opcode number. -/
def opcField (iw : IWord) : Word := iw.extractLsb' 96 32

/-- `iw[95:64]`, the first operand. -/
def aField (iw : IWord) : Word := iw.extractLsb' 64 32

/-- `iw[63:32]`, the second operand. -/
def bField (iw : IWord) : Word := iw.extractLsb' 32 32

/-- `iw[31:0]`, the third operand. -/
def cField (iw : IWord) : Word := iw.extractLsb' 0 32

/-- The word with the given fields, `{LBL, OPC, A, B, C}` (R71). -/
def mkWord (lbl : Tag) (opc a b c : Word) : IWord := lbl ++ opc ++ a ++ b ++ c

/-! ### Opcodes (R72) -/

/-- The seven opcodes of the closed set. -/
inductive Opcode where
  | add | sub | mul | div | out | lin | bnz
  deriving DecidableEq, Repr

/-- The opcode numbers of R72. -/
def opcodeNumber : Opcode → Word
  | .add => 1
  | .sub => 2
  | .mul => 3
  | .div => 4
  | .out => 5
  | .lin => 6
  | .bnz => 7

/-- The opcode with a number, none where R72 has the number reserved. -/
def opcodeOfNumber (n : Word) : Option Opcode :=
  if n = 1 then some .add
  else if n = 2 then some .sub
  else if n = 3 then some .mul
  else if n = 4 then some .div
  else if n = 5 then some .out
  else if n = 6 then some .lin
  else if n = 7 then some .bnz
  else none

/-- The opcode of an instruction term. -/
def opcodeOf : Instr → Opcode
  | .add .. => .add
  | .sub .. => .sub
  | .mul .. => .mul
  | .div .. => .div
  | .out .. => .out
  | .lin .. => .lin
  | .bnz .. => .bnz

/-! ### Decode (R78, R79) -/

/-- Why a word is illegal: the four cases of R79, by name. -/
inductive IllegalWord where
  /-- R79 (1): `OPC = 0` -/
  | opcodeZero
  /-- R79 (2): `OPC >= 8` -/
  | opcodeReserved
  /-- R79 (3): `out` with `B != 0` or `C != 0` -/
  | outOperandNotZero
  /-- R79 (4): `lin` with `C != 0` -/
  | linOperandNotZero
  deriving DecidableEq, Repr

/-- The answer of the decoder: an instruction term, or `Illegal` with its reason. -/
inductive Decoded where
  | instr (i : Instr)
  | illegal (why : IllegalWord)
  deriving DecidableEq, Repr

/-- `Decode` of R78, total on 192-bit words. `LBL` is not inspected. -/
def decode (iw : IWord) : Decoded :=
  match opcodeOfNumber (opcField iw) with
  | some .add => .instr (.add (lblField iw) (aField iw) (bField iw) (cField iw))
  | some .sub => .instr (.sub (lblField iw) (aField iw) (bField iw) (cField iw))
  | some .mul => .instr (.mul (lblField iw) (aField iw) (bField iw) (cField iw))
  | some .div => .instr (.div (lblField iw) (aField iw) (bField iw) (cField iw))
  | some .out =>
    if bField iw = 0 ∧ cField iw = 0 then .instr (.out (lblField iw) (aField iw)) else .illegal .outOperandNotZero
  | some .lin =>
    if cField iw = 0 then .instr (.lin (lblField iw) (aField iw) (bField iw)) else .illegal .linOperandNotZero
  | some .bnz => .instr (.bnz (lblField iw) (aField iw) (bField iw ++ cField iw))
  | none => if opcField iw = 0 then .illegal .opcodeZero else .illegal .opcodeReserved

/-- The word the host numbers as `w`: one word of 192 bits, bit 0 its least significant bit; bits from `nbits` up are 0. -/
def tableWord (nbits w : Nat) : IWord := BitVec.ofNat 192 (w % 2 ^ nbits)

/-- The instruction the decoder reads from the word numbered `w`, none where it is illegal. -/
def decodeTableWord (nbits w : Nat) : Option Instr :=
  match decode (tableWord nbits w) with
  | .instr i => some i
  | .illegal _ => none

/-! ### Encode (R84) -/

/-- The high half of a label tag, the `B` field of a `bnz` (R73). -/
def tagHigh (t : Tag) : Word := t.extractLsb' 32 32

/-- The low half of a label tag, the `C` field of a `bnz` (R73). -/
def tagLow (t : Tag) : Word := t.extractLsb' 0 32

/-- `Encode` of R84, from the operand placement of R73. -/
def encode : Instr → IWord
  | .add l r s1 s2 => mkWord l (opcodeNumber .add) r s1 s2
  | .sub l r s1 s2 => mkWord l (opcodeNumber .sub) r s1 s2
  | .mul l r s1 s2 => mkWord l (opcodeNumber .mul) r s1 s2
  | .div l r s1 s2 => mkWord l (opcodeNumber .div) r s1 s2
  | .out l s1 => mkWord l (opcodeNumber .out) s1 0 0
  | .lin l r x => mkWord l (opcodeNumber .lin) r x 0
  | .bnz l s1 t => mkWord l (opcodeNumber .bnz) s1 (tagHigh t) (tagLow t)

/-! ### Serialisation outside the engine (R82) -/

/-- The word as six 32-bit words `W0 .. W5`, the most significant first. -/
def toWords (iw : IWord) : List Word :=
  [iw.extractLsb' 160 32, iw.extractLsb' 128 32, opcField iw, aField iw, bField iw, cField iw]

/-- The word that six 32-bit words spell. -/
def ofWords : List Word → Option IWord
  | [w0, w1, w2, w3, w4, w5] => some (mkWord (w0 ++ w1) w2 w3 w4 w5)
  | _ => none

/-- A 32-bit word as four bytes, the most significant first. -/
def wordBytes (w : Word) : List Byte :=
  [w.extractLsb' 24 8, w.extractLsb' 16 8, w.extractLsb' 8 8, w.extractLsb' 0 8]

/-- The word as 24 bytes: byte `k` is `iw[191 - 8k : 184 - 8k]`. -/
def toBytes (iw : IWord) : List Byte :=
  (List.range 24).map fun k => iw.extractLsb' (184 - 8 * k) 8

/-- The number that bytes spell, the most significant first. -/
def bytesToNat : List Byte → Nat
  | [] => 0
  | b :: bs => b.toNat * 256 ^ bs.length + bytesToNat bs

/-- The word that 24 bytes spell. -/
def ofBytes (bs : List Byte) : Option IWord :=
  if bs.length = 24 then some (BitVec.ofNat 192 (bytesToNat bs)) else none

end Sys2Proof
end

