-- ==== Sys2Proof/Config.lean ====
section
/-! DEFINITION. What the build of the engine fixes (spec/00_scope.md R7), and the one free value. -/

namespace Sys2Proof

/-- NREGS of the default build (R7, D4; OPEN). Only the state after reset uses it: every operation takes the number of
registers from the state (assumption log 5). -/
def Config.nregs : Nat := 64

/-- IMEM_DEPTH of the default build (R7, D6; OPEN). Only the state after reset uses it (assumption log 5). -/
def Config.imemDepth : Nat := 65536

/-- FREE VALUE (assumption log 2): the word an instruction memory entry holds that the host has not written since
power-on. R221: a model "treats their power-on content as any value". No body, so no proof can see what it is. -/
opaque Config.powerOnWord : Nat → IWord

end Sys2Proof
end

