-- ==== Sys2Proof/Machine/State.lean ====
section
/-! DEFINITION. The state of the engine (spec/10_state.md R20), plain data, and its value after reset (R40, R220). -/

namespace Sys2Proof.Machine

/-- The instruction memory (R31): `depth` is IMEM_DEPTH, fixed when the memory is built (assumption log 5); `cells` are the
entries the host has written, as (index, word) pairs with the indices strictly rising (assumption logs 1 and 2). -/
structure Memory where
  depth : Nat
  cells : List (Nat × IWord)
  deriving DecidableEq, Repr

/-- `STATUS`, the run state (R34). -/
inductive Status where
  /-- reset done, no run started -/
  | idle
  /-- the loop is running; a step is enabled -/
  | running
  /-- the run ended: `pc` ran off the end of the program -/
  | halted
  /-- the run was stopped by a hard error -/
  | faulted
  deriving DecidableEq, Repr

/-- `FCAUSE`, the cause of the hard error that stopped the run (R35). The value 3 is never written and has no constructor
(assumption log 12). -/
inductive FCause where
  | none
  | divisionByZero
  | illegalInstruction
  deriving DecidableEq, Repr

/-- Which access of the register file an `InvalidRegister` event reports (R36). -/
inductive AccessKind where
  | read
  | write
  deriving DecidableEq, Repr

/-- The events of the log `EV` (R36). `site` is the field `at` of the spec. -/
inductive Event where
  /-- `Out(v)`, to the output sink -/
  | out (v : Word)
  /-- `InvalidRegister(kind, at, lbl, idx)`, to the diagnostic channel -/
  | invalidRegister (kind : AccessKind) (site : PcWord) (lbl : Tag) (idx : Word)
  /-- `InvalidLabel(at, lbl, target)`, to the diagnostic channel -/
  | invalidLabel (site : PcWord) (lbl : Tag) (target : Tag)
  deriving DecidableEq, Repr

/-- The whole state of the engine: the seven rows of R20 and nothing else. The register file is the list `regs`; its length
is NREGS (R21, assumption log 5). -/
structure State where
  regs : List Word
  pc : PcWord
  imem : Memory
  progLen : PcWord
  status : Status
  fcause : FCause
  ev : List Event
  deriving DecidableEq, Repr

/-- Why a step stops the machine: never. A hard error of the spec is a state (STATUS = FAULTED, R186; assumption log 7), and
an engine that is not running keeps its state (R42; assumption log 6); so there is no constructor. -/
inductive Fault where
  deriving DecidableEq, Repr

/-- Why a step is refused. -/
inductive Refusal where
  /-- An arm of `exec` whose instruction has no meaning yet (safe: the model stops). Every instruction has its meaning, so
  no arm raises it. -/
  | notModelled (mnemonic : String)
  deriving DecidableEq, Repr

/-- The state after reset (R40, R220) of an engine of the default build into which the host has loaded nothing. R40 gives
`regs`, `pc`, `status`, `fcause` and `ev`; reset does not change `IMEM` and `PROGLEN`, which are unspecified after power-on:
nothing is listed in `imem` (assumption log 2) and `progLen` is 0 (DESIGN CHOICE, assumption log 3). -/
def State.reset : State where
  regs := List.replicate Config.nregs 0
  pc := 0
  imem := { depth := Config.imemDepth, cells := [] }
  progLen := 0
  status := .idle
  fcause := .none
  ev := []

end Sys2Proof.Machine
end

