-- ==== Sys2Proof/Machine/Ops.lean ====
section
/-! DEFINITION. The named operations over the instruction memory, the registers, the event log and the run state
(spec/10_state.md R24 to R37, spec/60_exceptions.md R186, spec/70_reset_and_hazards.md R220). -/

namespace Sys2Proof.Machine

/-! ### Instruction memory (R31) -/

/-- The word a list of cells gives an index, none where it lists none. -/
def cellGet : List (Nat × IWord) → Nat → Option IWord
  | [], _ => none
  | (a, w) :: rest, i => if i = a then some w else cellGet rest i

/-- The cells with one index set, in the canonical order. -/
def cellSet : List (Nat × IWord) → Nat → IWord → List (Nat × IWord)
  | [], i, v => [(i, v)]
  | (a, w) :: rest, i, v =>
    if i < a then (i, v) :: (a, w) :: rest
    else if i = a then (i, v) :: rest
    else (a, w) :: cellSet rest i v

/-- Every index of the cells is above `lo`, and they rise strictly. -/
def risingAbove : Nat → List (Nat × IWord) → Bool
  | _, [] => true
  | lo, (a, _) :: rest => decide (lo < a) && risingAbove a rest

/-- The indices of the cells rise strictly. -/
def rising : List (Nat × IWord) → Bool
  | [] => true
  | (a, _) :: rest => risingAbove a rest

/-- The canonical form of the instruction memory: strictly rising indices, each below IMEM_DEPTH. -/
def Memory.wf (m : Memory) : Bool := rising m.cells && m.cells.all fun c => decide (c.1 < m.depth)

/-- The word at an index: what was written last, else the free power-on word (R221, assumption log 2). -/
def Memory.read (m : Memory) (i : Nat) : IWord :=
  match cellGet m.cells i with
  | some w => w
  | none => Config.powerOnWord i

/-- The memory with one entry written. Only the host's load port writes (R31, R227). -/
def Memory.write (m : Memory) (i : Nat) (v : IWord) : Memory := { m with cells := cellSet m.cells i v }

/-- `IFetch(a)` (spec/20_memory.md R52). `fetch` calls it only below PROGLEN. -/
def ifetch (a : PcWord) (s : State) : IWord := s.imem.read a.toNat

/-- `LT[i]`, entry `i` of the label table: the label tag of instruction `i` (R33). -/
def labelAt (i : Nat) (s : State) : Tag := lblField (s.imem.read i)

/-- `LabelLookup(t)` (R33): the lowest index below PROGLEN whose word has label tag `t`. -/
def labelLookup (t : Tag) (s : State) : Option Nat :=
  (List.range s.progLen.toNat).find? fun i => labelAt i s == t

/-! ### Event log (R36, R37) -/

/-- `Emit(e)`: append to the event log. -/
def emit (e : Event) (s : State) : State := { s with ev := s.ev ++ [e] }

/-- The label tag of the executing instruction, `IFetch(pc)[191:128]` (R24; assumption log 8). -/
def ownLabel (s : State) : Tag := lblField (ifetch s.pc s)

/-- The event kind numbers of spec/60_exceptions.md R191. -/
def eventKind : Event → BitVec 2
  | .out _ => 0
  | .invalidRegister .read _ _ _ => 1
  | .invalidRegister .write _ _ _ => 2
  | .invalidLabel _ _ _ => 3

/-- An event of the diagnostic channel, not of the output sink (R36). -/
def isDiagnostic (e : Event) : Bool := eventKind e ≠ 0

/-- The value an event sends to the output sink. -/
def outValue : Event → Option Word
  | .out v => some v
  | _ => none

/-- The output stream: the `Out` projection of the log (R37). -/
def outStream (ev : List Event) : List Word := ev.filterMap outValue

/-- The diagnostic stream: the other projection of the log (R37). -/
def diagStream (ev : List Event) : List Event := ev.filter isDiagnostic

/-! ### Register file (R21 to R26) -/

/-- NREGS: the number of registers of this engine. -/
def nregs (s : State) : Nat := s.regs.length

/-- The bounds check `0 <= signed(i) < NREGS` (R24, R25, D29). -/
def regInRange (i : Word) (s : State) : Bool := decide (0 ≤ i.toInt) && decide (i.toInt < s.regs.length)

/-- The raw storage read `x[i]` (R21), meaningful only in range. -/
def rawReg (i : Word) (s : State) : Word := s.regs.getD i.toInt.toNat 0

/-- `RegRead(i)` (R24): the value, and the state after the read. -/
def regRead (i : Word) (s : State) : Word × State :=
  if regInRange i s then (rawReg i s, s)
  else (0, emit (.invalidRegister .read s.pc (ownLabel s) i) s)

/-- `RegWrite(i, v)` (R25). -/
def regWrite (i v : Word) (s : State) : State :=
  if regInRange i s then { s with regs := s.regs.set i.toInt.toNat v }
  else emit (.invalidRegister .write s.pc (ownLabel s) i) s

/-! ### Program counter (R27, R28) -/

/-- `pc <- pc + 1`. -/
def advance (s : State) : State := { s with pc := s.pc + 1 }

/-- `pc <- t`, a taken branch: no increment follows (R28, spec/43_branch.md R161). -/
def branchTo (t : Nat) (s : State) : State := { s with pc := BitVec.ofNat 32 t }

/-! ### Run state: the end of the program, hard errors, reset -/

/-- The loop test failed: the run is over and nothing else changes (R42). -/
def halt (s : State) : State := { s with status := .halted }

/-- The hard errors (spec/60_exceptions.md R180, R191). -/
inductive HardError where
  | divisionByZero
  | illegalInstruction
  deriving DecidableEq, Repr

/-- `code(F)` of R186, as the FCAUSE it is. -/
def causeOf : HardError → FCause
  | .divisionByZero => .divisionByZero
  | .illegalInstruction => .illegalInstruction

/-- Taking an exception, `raise F` (R186): FCAUSE and STATUS, nothing else; there is no handler, nothing is saved, and the
`pc` stays on the faulting instruction. There is no return from it (R188): only `assertReset` leaves FAULTED. -/
def raise (f : HardError) (s : State) : State := { s with fcause := causeOf f, status := .faulted }

/-- Asserting `rst` (spec/70_reset_and_hazards.md R220), in any state: `IMEM` and `PROGLEN` are not changed. -/
def assertReset (s : State) : State :=
  { s with regs := List.replicate (nregs s) 0, pc := 0, status := .idle, fcause := .none, ev := [] }

/-- `STATUS` as its 2 bits (R34). -/
def statusCode : Status → BitVec 2
  | .idle => 0
  | .running => 1
  | .halted => 2
  | .faulted => 3

/-- `FCAUSE` as its 2 bits (R35). -/
def fcauseCode : FCause → BitVec 2
  | .none => 0
  | .divisionByZero => 1
  | .illegalInstruction => 2

end Sys2Proof.Machine
end

