-- ==== Sys2Proof/Machine/Flags.lean ====
section
/-! DEFINITION. The engine has no flags and no condition codes (spec/10_state.md R30): no operation here reads or writes one.
The two conditions an instruction tests are conditions on a value. -/

namespace Sys2Proof.Machine

/-- The condition of `bnz`: any value other than 0 (spec/43_branch.md R160, R165; assumption log 14). -/
def isNonZero (v : Word) : Bool := v.toInt ≠ 0

/-- The `div_by_zero` condition of the ALU on its second operand (spec/41_arithmetic.md R130, R135). -/
def divisorIsZero (v : Word) : Bool := v.toInt = 0

end Sys2Proof.Machine
end

