-- ==== Sys2Proof/Machine/Alu.lean ====
section
/-! DEFINITION. The ALU: add, sub, mul and truncating div on signed 32-bit values (spec/41_arithmetic.md R130, R131, R136). -/

namespace Sys2Proof.Machine

/-- The operation selector of the ALU (R130). -/
inductive AluOp where
  | add | sub | mul | div
  deriving DecidableEq, Repr

/-- What the ALU answers: a result, or for a divide the `div_by_zero` signal. -/
inductive AluAnswer where
  | result (v : Word)
  | divByZero
  deriving DecidableEq, Repr

/-- `wrap(n)` (spec/00_scope.md R8): the one value in `MIN..MAX` congruent to `n` modulo 2^32, as a register holds it. -/
def wrap (n : Int) : Word := BitVec.ofInt 32 n

/-- `tdiv(a, b)` (R131): the quotient rounded toward zero, by the formula of the rule. -/
def tdiv (a b : Int) : Int := a.sign * b.sign * ((a.natAbs / b.natAbs : Nat) : Int)

/-- The ALU: the exact integer result, wrapped; MIN / -1 wraps to MIN (D2, D3). -/
def alu (op : AluOp) (v1 v2 : Word) : AluAnswer :=
  match op with
  | .add => .result (wrap (v1.toInt + v2.toInt))
  | .sub => .result (wrap (v1.toInt - v2.toInt))
  | .mul => .result (wrap (v1.toInt * v2.toInt))
  | .div => if divisorIsZero v2 then .divByZero else .result (wrap (tdiv v1.toInt v2.toInt))

end Sys2Proof.Machine
end

