-- ==== Sys2Proof/Machine/Operands.lean ====
section
/-! DEFINITION. The operand forms of the seven instructions (spec/30_encoding.md R73, R75 to R77): register source, register
destination, immediate, label. -/

namespace Sys2Proof.Machine

/-- What two register sources give: the values and the state after both reads. -/
structure SourcePair where
  v1 : Word
  v2 : Word
  after : State
  deriving DecidableEq, Repr

/-- One register source: `RegRead`, all 32 bits of the field passed unchanged (R76). -/
def readSource (i : Word) (s : State) : Word × State := regRead i s

/-- Two register sources, `s1` first and `s2` second (spec/41_arithmetic.md R130). -/
def readSources (s1 s2 : Word) (s : State) : SourcePair :=
  let first := readSource s1 s
  let second := readSource s2 first.2
  { v1 := first.1, v2 := second.1, after := second.2 }

/-- A register destination: `RegWrite`, all 32 bits of the field passed unchanged (R76). -/
def writeDest (r v : Word) (s : State) : State := regWrite r v s

/-- The immediate of `lin`: the whole field, not scaled, shifted or extended (R75). -/
def immediate (x : Word) : Word := x

end Sys2Proof.Machine
end

