-- ==== Sys2Proof/Machine/Arith.lean ====
section
/-! DEFINITION. `add`, `sub`, `mul`, `div` (spec/41_arithmetic.md R130 to R137). -/

namespace Sys2Proof.Machine

/-- The shape the four instructions share (R130): read `s1`, read `s2`, one ALU operation, then write `r` and advance; a
`div_by_zero` signal raises DivisionByZero instead, before the write (R135). -/
def aluInstr (op : AluOp) (r s1 s2 : Word) (s : State) : State :=
  let src := readSources s1 s2 s
  match alu op src.v1 src.v2 with
  | .result v => advance (writeDest r v src.after)
  | .divByZero => raise .divisionByZero src.after

/-- `add r s1 s2` (R132). -/
def execAdd (r s1 s2 : Word) (s : State) : Host.Outcome State Fault Refusal := .next (aluInstr .add r s1 s2 s)

/-- `sub r s1 s2` (R133). -/
def execSub (r s1 s2 : Word) (s : State) : Host.Outcome State Fault Refusal := .next (aluInstr .sub r s1 s2 s)

/-- `mul r s1 s2` (R134). -/
def execMul (r s1 s2 : Word) (s : State) : Host.Outcome State Fault Refusal := .next (aluInstr .mul r s1 s2 s)

/-- `div r s1 s2` (R135). -/
def execDiv (r s1 s2 : Word) (s : State) : Host.Outcome State Fault Refusal := .next (aluInstr .div r s1 s2 s)

end Sys2Proof.Machine
end

