-- ==== Sys2Proof/Machine/Branch.lean ====
section
/-! DEFINITION. `bnz` and the branch resolution unit (spec/43_branch.md R160 to R163). -/

namespace Sys2Proof.Machine

/-- What the branch resolution unit answers (R161). -/
inductive Resolution where
  /-- the tested value is 0: the label is not looked up (R162) -/
  | notTaken
  /-- the tested value is not 0 and the lookup hit -/
  | taken (index : Nat)
  /-- the tested value is not 0 and no instruction carries the label (R163) -/
  | unknownLabel
  deriving DecidableEq, Repr

/-- The branch resolution unit, on the tested value and the label. -/
def resolveBranch (v : Word) (target : Tag) (s : State) : Resolution :=
  if isNonZero v then
    match labelLookup target s with
    | some t => .taken t
    | none => .unknownLabel
  else .notTaken

/-- `bnz s1 L` (R160): an unknown label is reported and falls through (R163). -/
def execBnz (s1 : Word) (target : Tag) (s : State) : Host.Outcome State Fault Refusal :=
  let src := readSource s1 s
  match resolveBranch src.1 target src.2 with
  | .taken t => .next (branchTo t src.2)
  | .unknownLabel => .next (advance (emit (.invalidLabel src.2.pc (ownLabel src.2) target) src.2))
  | .notTaken => .next (advance src.2)

end Sys2Proof.Machine
end

