-- ==== Sys2Proof/Machine/LoadImm.lean ====
section
/-! DEFINITION. `lin` (spec/40_load_immediate.md R120). -/

namespace Sys2Proof.Machine

/-- `lin r x` (R120): write the immediate, then advance. -/
def execLin (r x : Word) (s : State) : Host.Outcome State Fault Refusal :=
  .next (advance (writeDest r (immediate x) s))

end Sys2Proof.Machine
end

