-- ==== Sys2Proof/Machine/Output.lean ====
section
/-! DEFINITION. `out` (spec/42_output.md R150). -/

namespace Sys2Proof.Machine

/-- `out s1` (R150): read, emit `Out`, advance. An out-of-range read reports before the `Out` event. -/
def execOut (s1 : Word) (s : State) : Host.Outcome State Fault Refusal :=
  let src := readSource s1 s
  .next (advance (emit (.out src.1) src.2))

end Sys2Proof.Machine
end

