-- ==== Sys2Proof/Machine/Dispatch.lean ====
section
/-! DEFINITION. `Execute(d)` of spec/10_state.md R42: one arm per instruction. An instruction's own label tag takes no part
in its execution; an event's label is read from the word at `pc` (R24), which `step` decoded it from (assumption log 8). -/

namespace Sys2Proof.Machine

def exec (i : Instr) (s : State) : Host.Outcome State Fault Refusal :=
  match i with
  | .add _ r s1 s2 => Sys2Proof.Machine.execAdd r s1 s2 s
  | .sub _ r s1 s2 => Sys2Proof.Machine.execSub r s1 s2 s
  | .mul _ r s1 s2 => Sys2Proof.Machine.execMul r s1 s2 s
  | .div _ r s1 s2 => Sys2Proof.Machine.execDiv r s1 s2 s
  | .out _ s1 => Sys2Proof.Machine.execOut s1 s
  | .lin _ r x => Sys2Proof.Machine.execLin r x s
  | .bnz _ s1 target => Sys2Proof.Machine.execBnz s1 target s

end Sys2Proof.Machine
end

