-- ==== Sys2Proof/Machine/Fetch.lean ====
section
/-! DEFINITION. The fetch and decode part of `Step` (spec/10_state.md R42), and placing a word where it fetches. -/

namespace Sys2Proof.Machine

/-- What fetch and decode find. -/
inductive Fetched where
  /-- STATUS is not RUNNING: no step is enabled -/
  | notEnabled
  /-- the loop test fails: `pc >= PROGLEN` -/
  | endOfProgram
  /-- the word at `pc` does not decode -/
  | illegal
  /-- the word at `pc` decodes to an instruction -/
  | instr (i : Instr)
  deriving DecidableEq, Repr

/-- The enable, the loop test, fetch and decode, in the order of R42 and of spec/60_exceptions.md R190. -/
def fetch (s : State) : Fetched :=
  if s.status = .running then
    if s.pc.toNat < s.progLen.toNat then
      match decode (ifetch s.pc s) with
      | .instr i => .instr i
      | .illegal _ => .illegal
    else .endOfProgram
  else .notEnabled

/-- The state with a word placed where the next step fetches: the word in `IMEM[pc]`, PROGLEN above `pc`, STATUS = RUNNING
(assumption log 25). A `pc` that no PROGLEN exceeds is set to 0. -/
def placeWord (iw : IWord) (s : State) : State :=
  let pc : PcWord := if s.pc.toNat + 1 < 2 ^ 32 then s.pc else 0
  { s with
    pc := pc
    imem := s.imem.write pc.toNat iw
    progLen := if pc.toNat < s.progLen.toNat then s.progLen else pc + 1
    status := .running }

end Sys2Proof.Machine
end

