-- ==== Sys2Proof/Machine/Step.lean ====
section
/-! DEFINITION. `Step`, the single transition of the engine (spec/10_state.md R42). -/

namespace Sys2Proof.Machine

/-- `Step` of R42. In IDLE, HALTED and FAULTED no step is enabled and the state does not change (assumption log 6). -/
def step (s : State) : Host.Outcome State Fault Refusal :=
  match fetch s with
  | .notEnabled => .next s
  | .endOfProgram => .next (halt s)
  | .illegal => .next (raise .illegalInstruction s)
  | .instr i => exec i s

/-- The state whose next step runs the word numbered `w` (assumption logs 9 and 25). -/
def State.withFetchWord (s : State) (nbits w : Nat) : State := placeWord (tableWord nbits w) s

end Sys2Proof.Machine
end

