-- ==== Sys2Proof/WellFormed.lean ====
section
/-! DEFINITION. When a label tag is the tag of a name, and when an instruction could have come from the assembler
(spec/30_encoding.md R112, conditions (3) and (5)). Every instruction term has an encoding, well formed or not (R84). -/

namespace Sys2Proof

/-- The bytes of a label tag, the most significant first: byte `b[0]` of the name is in bits 63:56 (R74). -/
def tagBytes (t : Tag) : List Byte :=
  [t.extractLsb' 56 8, t.extractLsb' 48 8, t.extractLsb' 40 8, t.extractLsb' 32 8,
   t.extractLsb' 24 8, t.extractLsb' 16 8, t.extractLsb' 8 8, t.extractLsb' 0 8]

/-- No non-zero byte stands after a zero byte. -/
def zeroPadded : List Byte → Bool
  | [] => true
  | b :: bs => (b ≠ 0 || bs.all (· = 0)) && zeroPadded bs

/-- R112 (3): "non-zero first byte, no non-zero byte after a zero byte" (assumption log 16). -/
def isNameTag (t : Tag) : Bool :=
  (t.extractLsb' 56 8 ≠ 0) && zeroPadded (tagBytes t)

/-- R112 (3) and (5) for one instruction: its own label, and the target of a `bnz`, are tags of names. -/
def Instr.wellFormed : Instr → Bool
  | .add l _ _ _ => isNameTag l
  | .sub l _ _ _ => isNameTag l
  | .mul l _ _ _ => isNameTag l
  | .div l _ _ _ => isNameTag l
  | .out l _ => isNameTag l
  | .lin l _ _ => isNameTag l
  | .bnz l _ t => isNameTag l && isNameTag t

end Sys2Proof
end

