-- ==== Sys2Proof/Machine/Image.lean ====
section
/-! DEFINITION. The program image (spec/30_encoding.md R82, R110) and when it is well formed (R112). -/

namespace Sys2Proof.Machine

/-- A program image: the words `IMEM[0], IMEM[1], ...`; PROGLEN is their number. -/
structure Image where
  words : List IWord
  deriving DecidableEq, Repr

/-- PROGLEN of an image, as the 32-bit register holds it. -/
def imageLen (img : Image) : PcWord := BitVec.ofNat 32 img.words.length

/-- R112 (2), (3) and (5) for one word: it decodes to an instruction whose label, and a `bnz`'s target, are tags of names. -/
def wordWellFormed (iw : IWord) : Bool :=
  match decode iw with
  | .instr i => i.wellFormed
  | .illegal _ => false

/-- R112 (4): the labels are pairwise different. -/
def labelsDistinct : List Tag → Bool
  | [] => true
  | t :: ts => !ts.contains t && labelsDistinct ts

/-- A well-formed image for an instruction memory of `depth` entries (R112). -/
def imageWellFormed (depth : Nat) (img : Image) : Bool :=
  decide (img.words.length ≤ depth) && img.words.all wordWellFormed && labelsDistinct (img.words.map lblField)

/-- The image the engine holds: PROGLEN and `IMEM[0 .. PROGLEN-1]`. -/
def loadedImage (s : State) : Image := { words := (List.range s.progLen.toNat).map s.imem.read }

/-- An image as bytes: PROGLEN, then the words in index order, the most significant byte first (R82; assumption log 20). -/
def imageBytes (img : Image) : List Byte := wordBytes (imageLen img) ++ img.words.flatMap toBytes

end Sys2Proof.Machine
end

