-- ==== Sys2Proof/Machine/Text.lean ====
section
/-! DEFINITION. Text as bytes: tokens (spec/30_encoding.md R90), decimal integers (R93, R111; spec/42_output.md R151). -/

namespace Sys2Proof.Machine

/-- A token: a run of bytes without whitespace. -/
abbrev Token := List Byte

/-- Whitespace is the space and the horizontal tab (R90, D25). -/
def isSpace (b : Byte) : Bool := b = 0x20 || b = 0x09

/-- The tokens of a line, separated by runs of whitespace (R90). -/
def tokens : List Byte → List Token
  | [] => []
  | b :: bs =>
    if isSpace b then tokens bs
    else
      match bs with
      | [] => [[b]]
      | c :: _ =>
        if isSpace c then [b] :: tokens bs
        else
          match tokens bs with
          | [] => [[b]]
          | t :: ts => (b :: t) :: ts

/-- The byte of a decimal digit. -/
def digitByte (d : Nat) : Byte := BitVec.ofNat 8 (0x30 + d)

/-- The value of a decimal digit's byte. -/
def digitValue (b : Byte) : Option Nat :=
  if 0x30 ≤ b.toNat ∧ b.toNat ≤ 0x39 then some (b.toNat - 0x30) else none

/-- The decimal digits of `n`, with fuel above the number of digits. -/
def decimalDigits : Nat → Nat → List Byte
  | 0, _ => []
  | fuel + 1, n => if n < 10 then [digitByte n] else decimalDigits fuel (n / 10) ++ [digitByte (n % 10)]

/-- The minimal decimal spelling of a natural number. -/
def decimalNat (n : Nat) : List Byte := decimalDigits (n + 1) n

/-- The minimal signed decimal spelling: `-` for a negative value, no leading zeros (R111, R151, D30). -/
def decimalInt (n : Int) : List Byte := if n < 0 then 0x2D :: decimalNat n.natAbs else decimalNat n.natAbs

/-- The number that digits continue, none if a byte is no digit. -/
def digitsFrom : Nat → List Byte → Option Nat
  | acc, [] => some acc
  | acc, b :: bs =>
    match digitValue b with
    | some d => digitsFrom (acc * 10 + d) bs
    | none => none

/-- One or more digits. -/
def parseNat : List Byte → Option Nat
  | [] => none
  | b :: bs => digitsFrom 0 (b :: bs)

/-- The integer a token spells (R93): an optional `-`, then one or more digits, and nothing else. -/
def parseInt : Token → Option Int
  | [] => none
  | b :: bs => if b = 0x2D then (parseNat bs).map fun n => -(n : Int) else (parseNat (b :: bs)).map fun n => (n : Int)

/-- A register or immediate operand (R93): an integer in `MIN..MAX`, as 32 bits. -/
def parseWord (t : Token) : Option Word :=
  match parseInt t with
  | some n => if minInt ≤ n ∧ n ≤ maxInt then some (BitVec.ofInt 32 n) else none
  | none => none

/-- A line of the output sink: the value in decimal and a line end (spec/42_output.md R151; assumption log 19). -/
def sinkLine (v : Word) : List Byte := decimalInt v.toInt ++ [0x0A]

end Sys2Proof.Machine
end

