-- ==== Sys2Proof/Machine/Assembler.lean ====
section
/-! DEFINITION. The assembler: the source's Translator (spec/30_encoding.md R90 to R107) and the emission of an image (R103,
R110), as pure functions. Toolchain, not hardware (spec/00_scope.md R5): no step of the engine calls it. -/

namespace Sys2Proof.Machine

/-- A label name: the bytes of a token (R91). -/
abbrev Name := Token

/-- The abstract instruction of R83 with labels as names: what the Translator builds. -/
inductive SrcInstr where
  | add (lbl : Name) (r s1 s2 : Word)
  | sub (lbl : Name) (r s1 s2 : Word)
  | mul (lbl : Name) (r s1 s2 : Word)
  | div (lbl : Name) (r s1 s2 : Word)
  | out (lbl : Name) (s1 : Word)
  | lin (lbl : Name) (r x : Word)
  | bnz (lbl : Name) (s1 : Word) (target : Name)
  deriving DecidableEq, Repr

/-- The label name of an abstract instruction. -/
def srcLabel : SrcInstr → Name
  | .add l _ _ _ => l
  | .sub l _ _ _ => l
  | .mul l _ _ _ => l
  | .div l _ _ _ => l
  | .out l _ => l
  | .lin l _ _ => l
  | .bnz l _ _ => l

/-- The ways an assembly fails (R104), lines numbered from 1. -/
inductive AsmError where
  /-- R96: the line has no first token -/
  | missingLabel (line : Nat)
  /-- R97: the label is already in the Label Table -/
  | duplicateLabel (original line : Nat)
  /-- R98: a label token and nothing after it -/
  | missingOpcode (line : Nat)
  /-- R99: the opcode token is no mnemonic -/
  | unknownInstruction (line : Nat) (token : Token)
  /-- R100: the operand count is not the arity; annotated with the opcode and the label (R95 step 5) -/
  | wrongArity (opcode : Opcode) (lbl : Name)
  /-- R101: the first bad operand token; annotated with the opcode and the label (R95 step 5) -/
  | invalidOperand (token : Token) (opcode : Opcode) (lbl : Name)
  /-- R102: the collaborator cannot supply lines -/
  | sourceUnavailable
  /-- R103: a name that has no tag -/
  | labelTooLong (name : Name)
  /-- R110: more lines than IMEM_DEPTH -/
  | programTooLong (length : Nat)
  deriving DecidableEq, Repr

/-! ### Mnemonics and operands (R92) -/

/-- The bytes of a mnemonic, lower case (R92, D23). -/
def mnemonicBytes : Opcode → Token
  | .add => [0x61, 0x64, 0x64]
  | .sub => [0x73, 0x75, 0x62]
  | .mul => [0x6D, 0x75, 0x6C]
  | .div => [0x64, 0x69, 0x76]
  | .out => [0x6F, 0x75, 0x74]
  | .lin => [0x6C, 0x69, 0x6E]
  | .bnz => [0x62, 0x6E, 0x7A]

/-- The seven opcodes, in the order of R72. -/
def allOpcodes : List Opcode := [.add, .sub, .mul, .div, .out, .lin, .bnz]

/-- The opcode a token names, compared exactly (R99). -/
def opcodeOfToken (t : Token) : Option Opcode := allOpcodes.find? fun o => mnemonicBytes o = t

/-- The arity of an opcode (R92). -/
def arity : Opcode → Nat
  | .add => 3
  | .sub => 3
  | .mul => 3
  | .div => 3
  | .out => 1
  | .lin => 2
  | .bnz => 2

/-- The integer operands of a list of tokens, left to right, or the first token that is none (R101). -/
def parseWords : List Token → Except Token (List Word)
  | [] => .ok []
  | t :: ts =>
    match parseWord t with
    | none => .error t
    | some w =>
      match parseWords ts with
      | .error bad => .error bad
      | .ok ws => .ok (w :: ws)

/-- The abstract instruction of an opcode, a label, its integer operands and its label operand; none for another count. -/
def srcOf (o : Opcode) (l : Name) (ws : List Word) (target : Option Name) : Option SrcInstr :=
  match o, ws, target with
  | .add, [r, s1, s2], none => some (.add l r s1 s2)
  | .sub, [r, s1, s2], none => some (.sub l r s1 s2)
  | .mul, [r, s1, s2], none => some (.mul l r s1 s2)
  | .div, [r, s1, s2], none => some (.div l r s1 s2)
  | .out, [s1], none => some (.out l s1)
  | .lin, [r, x], none => some (.lin l r x)
  | .bnz, [s1], some t => some (.bnz l s1 t)
  | _, _, _ => none

/-- The integer operand tokens and the label operand token of an opcode: only `bnz` has a label operand, its last (R92). -/
def splitOperands (o : Opcode) (ops : List Token) : List Token × Option Token :=
  match o with
  | .bnz => (ops.dropLast, ops.getLast?)
  | _ => (ops, none)

/-- Building an instruction from its operand tokens (R95 step 5): the arity first (R100), then each operand (R101). -/
def buildInstr (o : Opcode) (l : Name) (ops : List Token) : Except AsmError SrcInstr :=
  if ops.length = arity o then
    match parseWords (splitOperands o ops).1 with
    | .error bad => .error (.invalidOperand bad o l)
    | .ok ws =>
      match srcOf o l ws (splitOperands o ops).2 with
      | some i => .ok i
      | none => .error (.wrongArity o l)
  else .error (.wrongArity o l)

/-! ### Translation (R95) -/

/-- The Label Table of a program under construction: entry `i` is the label of instruction `i` (R107). -/
def labelTable (prog : List SrcInstr) : List Name := prog.map srcLabel

/-- The index of a label in the table (R107), none where it is not there. -/
def labelIndex (l : Name) (table : List Name) : Option Nat := table.findIdx? fun n => n = l

/-- One line (R95 steps 2 to 5), after the instructions `prog` of the lines before it. -/
def translateLine (prog : List SrcInstr) (line : List Byte) : Except AsmError SrcInstr :=
  match tokens line with
  | [] => .error (.missingLabel (prog.length + 1))
  | l :: rest =>
    match labelIndex l (labelTable prog) with
    | some k => .error (.duplicateLabel (k + 1) (prog.length + 1))
    | none =>
      match rest with
      | [] => .error (.missingOpcode (prog.length + 1))
      | m :: ops =>
        match opcodeOfToken m with
        | none => .error (.unknownInstruction (prog.length + 1) m)
        | some o => buildInstr o l ops

/-- The lines from the current one on (R95): all or nothing (R104). -/
def translateFrom (prog : List SrcInstr) : List (List Byte) → Except AsmError (List SrcInstr)
  | [] => .ok prog
  | line :: lines =>
    match translateLine prog line with
    | .error e => .error e
    | .ok i => translateFrom (prog ++ [i]) lines

/-- The translation of a source, from cleared tables (R95, R105); none for a source that cannot supply lines (R102). -/
def translate (source : Option (List (List Byte))) : Except AsmError (List SrcInstr) :=
  match source with
  | none => .error .sourceUnavailable
  | some lines => translateFrom [] lines

/-! ### Emission of the image (R74, R103, R110) -/

/-- Byte `k` of a name, zero beyond its end (R74). -/
def nameByte (n : Name) (k : Nat) : Byte := n.getD k 0

/-- `tag(name)` of R74, none for a name that has no tag (R103). -/
def tagOfName (n : Name) : Option Tag :=
  if 1 ≤ n.length ∧ n.length ≤ 8 ∧ n.all (· ≠ 0) then
    some (nameByte n 0 ++ nameByte n 1 ++ nameByte n 2 ++ nameByte n 3
      ++ nameByte n 4 ++ nameByte n 5 ++ nameByte n 6 ++ nameByte n 7)
  else none

/-- The tag of a name, or the failure that names it (R103). -/
def emitTag (n : Name) : Except AsmError Tag :=
  match tagOfName n with
  | some t => .ok t
  | none => .error (.labelTooLong n)

/-- The instruction with its labels as tags (R110): its own label first, then a `bnz`'s target (assumption log 17). -/
def emitInstr (i : SrcInstr) : Except AsmError Instr :=
  match emitTag (srcLabel i) with
  | .error e => .error e
  | .ok l =>
    match i with
    | .add _ r s1 s2 => .ok (.add l r s1 s2)
    | .sub _ r s1 s2 => .ok (.sub l r s1 s2)
    | .mul _ r s1 s2 => .ok (.mul l r s1 s2)
    | .div _ r s1 s2 => .ok (.div l r s1 s2)
    | .out _ s1 => .ok (.out l s1)
    | .lin _ r x => .ok (.lin l r x)
    | .bnz _ s1 target =>
      match emitTag target with
      | .error e => .error e
      | .ok t => .ok (.bnz l s1 t)

/-- The words of a program, in order, or the first failure. -/
def emitWords : List SrcInstr → Except AsmError (List IWord)
  | [] => .ok []
  | i :: rest =>
    match emitInstr i with
    | .error e => .error e
    | .ok t =>
      match emitWords rest with
      | .error e => .error e
      | .ok ws => .ok (encode t :: ws)

/-- The image of a translated program, for an instruction memory of `depth` entries (R110). -/
def emitImage (depth : Nat) (prog : List SrcInstr) : Except AsmError Image :=
  if prog.length ≤ depth then
    match emitWords prog with
    | .error e => .error e
    | .ok ws => .ok { words := ws }
  else .error (.programTooLong prog.length)

/-- The assembler: translation, then emission. -/
def assemble (depth : Nat) (source : Option (List (List Byte))) : Except AsmError Image :=
  match translate source with
  | .error e => .error e
  | .ok prog => emitImage depth prog

/-! ### Canonical disassembly (R111) -/

/-- One operand with the space before it. -/
def spaced (t : Token) : List Byte := 0x20 :: t

/-- An integer operand, in minimal signed decimal. -/
def spacedInt (w : Word) : List Byte := spaced (decimalInt w.toInt)

/-- The opcode of an abstract instruction. -/
def srcOpcode : SrcInstr → Opcode
  | .add .. => .add
  | .sub .. => .sub
  | .mul .. => .mul
  | .div .. => .div
  | .out .. => .out
  | .lin .. => .lin
  | .bnz .. => .bnz

/-- The operands of an abstract instruction, each with the space before it. -/
def describeOperands : SrcInstr → List Byte
  | .add _ r s1 s2 => spacedInt r ++ spacedInt s1 ++ spacedInt s2
  | .sub _ r s1 s2 => spacedInt r ++ spacedInt s1 ++ spacedInt s2
  | .mul _ r s1 s2 => spacedInt r ++ spacedInt s1 ++ spacedInt s2
  | .div _ r s1 s2 => spacedInt r ++ spacedInt s1 ++ spacedInt s2
  | .out _ s1 => spacedInt s1
  | .lin _ r x => spacedInt r ++ spacedInt x
  | .bnz _ s1 target => spacedInt s1 ++ spaced target

/-- The canonical listing line: label, colon, space, mnemonic, operands (R111, D27). -/
def describe (i : SrcInstr) : List Byte :=
  srcLabel i ++ [0x3A, 0x20] ++ mnemonicBytes (srcOpcode i) ++ describeOperands i

/-- The name a label tag spells: its bytes before the first zero byte (R74). For a tag that is the tag of no name (a zero first
byte, or a non-zero byte after a zero byte) the spec gives no name, and that a listing shows these same bytes, none for a zero
first byte, and drops the rest is the model's choice (DESIGN CHOICE, assumption log 27). -/
def nameOfTag (t : Tag) : Name := (tagBytes t).takeWhile (· ≠ 0)

/-- A decoded instruction with its labels as names, for listings (R111); a tag of no name as assumption log 27 says. -/
def srcOfInstr : Instr → SrcInstr
  | .add l r s1 s2 => .add (nameOfTag l) r s1 s2
  | .sub l r s1 s2 => .sub (nameOfTag l) r s1 s2
  | .mul l r s1 s2 => .mul (nameOfTag l) r s1 s2
  | .div l r s1 s2 => .div (nameOfTag l) r s1 s2
  | .out l s1 => .out (nameOfTag l) s1
  | .lin l r x => .lin (nameOfTag l) r x
  | .bnz l s1 t => .bnz (nameOfTag l) s1 (nameOfTag t)

/-- The source line of an abstract instruction (R90): the listing without the colon. -/
def sourceLine (i : SrcInstr) : List Byte :=
  srcLabel i ++ [0x20] ++ mnemonicBytes (srcOpcode i) ++ describeOperands i

end Sys2Proof.Machine
end

