-- ==== Sys2Proof/Machine/Ports.lean ====
section
/-! DEFINITION. The host interface: the ports of spec/70_reset_and_hazards.md R226, one clock cycle of the single-cycle
reference implementation (R225), and the boot sequence (R222). The ports are the input of a cycle, not state (log 9). -/

namespace Sys2Proof.Machine

/-- The input ports in one clock cycle (R226). `ldSel` is false for an `IMEM` entry and true for PROGLEN. -/
structure PortsIn where
  rst : Bool
  start : Bool
  ldWe : Bool
  ldSel : Bool
  ldAddr : BitVec 32
  ldData : IWord
  dbgRaddr : BitVec 32
  deriving DecidableEq, Repr

/-- No request on any input port. -/
def quietPorts : PortsIn :=
  { rst := false, start := false, ldWe := false, ldSel := false, ldAddr := 0, ldData := 0, dbgRaddr := 0 }

/-- A load write of one `IMEM` entry or of PROGLEN (R227): performed in IDLE only, and below IMEM_DEPTH only. -/
def loadPort (toProgLen : Bool) (addr : BitVec 32) (data : IWord) (s : State) : State :=
  if s.status = .idle then
    if toProgLen then { s with progLen := data.extractLsb' 0 32 }
    else if addr.toNat < s.imem.depth then { s with imem := s.imem.write addr.toNat data }
    else s
  else s

/-- A start request (R228): honoured in IDLE with PROGLEN <= IMEM_DEPTH, else ignored. -/
def startPort (s : State) : State :=
  if s.status = .idle ∧ s.progLen.toNat ≤ s.imem.depth then { s with status := .running } else s

/-- What the host's ports do to an engine that is not running: the load write first, then the start (R228). -/
def hostRequests (p : PortsIn) (s : State) : State :=
  let loaded := if p.ldWe then loadPort p.ldSel p.ldAddr p.ldData s else s
  if p.start then startPort loaded else loaded

/-- One rising edge of the clock: reset first (assumption log 10); while RUNNING exactly one step (R225), whatever the load
and start ports say; else what the host requests. -/
def cycle (p : PortsIn) (s : State) : Host.Outcome State Fault Refusal :=
  if p.rst then .next (assertReset s)
  else if s.status = .running then step s
  else .next (hostRequests p s)

/-- The events of the cycle that begins in `s`: those its step appends (R230, R231); none in a cycle with `rst` (log 10). -/
def cycleEvents (p : PortsIn) (s : State) : List Event :=
  if p.rst then []
  else
    match step s with
    | .next t => t.ev.drop s.ev.length
    | .fault _ => []
    | .refused _ => []

/-- A diagnostic record `{kind[1:0], at[31:0], lbl[63:0], info[63:0]}` (R231). -/
abbrev DiagRec := BitVec 162

/-- The record of a diagnostic event (R231), none for an `Out` event. -/
def diagRecord : Event → Option DiagRec
  | .out _ => none
  | .invalidRegister k site lbl idx =>
    some (eventKind (.invalidRegister k site lbl idx) ++ site ++ lbl ++ idx.signExtend 64)
  | .invalidLabel site lbl target => some (eventKind (.invalidLabel site lbl target) ++ site ++ lbl ++ target)

/-- The host's read port of the register file, `dbg_rdata` (R226): it emits no event, and the host may read it at any time
(R232), a RUNNING engine's registers included (DEDUCED, assumption log 26). -/
def debugRead (addr : BitVec 32) (s : State) : Word :=
  if addr.toNat < nregs s then s.regs.getD addr.toNat 0 else 0

/-- The output ports in one clock cycle (R226). `outData` is `out_data` where `out_valid` is 1, else none; lane `k` of the
diagnostic port is entry `k` of `diagLanes`, valid where the list has one (assumption log 13). -/
structure PortsOut where
  status : BitVec 2
  fcause : BitVec 2
  pcOut : BitVec 32
  dbgRdata : Word
  outData : Option Word
  diagLanes : List DiagRec
  deriving DecidableEq, Repr

/-- What the engine shows in the cycle that begins in `s` with the input `p` (R229 to R231). -/
def outputs (p : PortsIn) (s : State) : PortsOut :=
  { status := statusCode s.status
    fcause := fcauseCode s.fcause
    pcOut := s.pc
    dbgRdata := debugRead p.dbgRaddr s
    outData := (outStream (cycleEvents p s)).head?
    diagLanes := (cycleEvents p s).filterMap diagRecord }

/-- `out_valid` (R230). -/
def outValid (o : PortsOut) : Bool := o.outData.isSome

/-- `diag_valid[k]` (R231). -/
def diagValid (k : Nat) (o : PortsOut) : Bool := decide (k < o.diagLanes.length)

/-! ### Boot (R222) -/

/-- The load writes of a list of words, from an index on. -/
def loadWords : Nat → List IWord → State → State
  | _, [], s => s
  | i, w :: ws, s => loadWords (i + 1) ws (loadPort false (BitVec.ofNat 32 i) w s)

/-- The load writes of an image: PROGLEN, then the words (R222 step 2). -/
def loadImage (img : Image) (s : State) : State :=
  loadWords 0 img.words (loadPort true 0 ((imageLen img).zeroExtend 192) s)

/-- The boot sequence (R222): reset, load, start. -/
def boot (img : Image) (s : State) : State := startPort (loadImage img (assertReset s))

end Sys2Proof.Machine
end

