-- ==== Sys2Proof/Safety.lean ====
section
/-! DEFINITION. What claims call a sound state, a finished run and a safe run (spec/10_state.md R41, R43;
spec/60_exceptions.md R200). -/

namespace Sys2Proof.Machine

/-! ### What a register access reads, writes and logs -/

/-- An index names a register: `0 <= signed(i) < NREGS` (R24, R25). -/
abbrev inFile (i : Word) (s : State) : Prop := 0 ≤ i.toInt ∧ i.toInt < s.regs.length

/-- The value a register source contributes: the register's, or 0 where the index names none (R24). -/
def readValue (i : Word) (s : State) : Word := if inFile i s then s.regs.getD i.toInt.toNat 0 else 0

/-- The label tag of the instruction at `pc`, `IFetch(pc)[191:128]`. -/
def labelAtPc (s : State) : Tag := lblField (s.imem.read s.pc.toNat)

/-- The events a read of index `i` appends (R24). -/
def readLog (i : Word) (s : State) : List Event :=
  if inFile i s then [] else [.invalidRegister .read s.pc (labelAtPc s) i]

/-- The register file after a write of `v` to index `r` (R25). -/
def writtenRegs (r v : Word) (s : State) : List Word := if inFile r s then s.regs.set r.toInt.toNat v else s.regs

/-- The events a write to index `r` appends (R25). -/
def writeLog (r : Word) (s : State) : List Event :=
  if inFile r s then [] else [.invalidRegister .write s.pc (labelAtPc s) r]

/-! ### Runs -/

/-- The result tuple of a finished run (R43). -/
structure RunResult where
  status : Status
  fcause : FCause
  pc : PcWord
  regs : List Word
  ev : List Event
  deriving DecidableEq, Repr

/-- The result of a run that has ended (R43), none for an engine that is idle or running. -/
def runResult (s : State) : Option RunResult :=
  match s.status with
  | .idle => none
  | .running => none
  | .halted => some { status := s.status, fcause := s.fcause, pc := s.pc, regs := s.regs, ev := s.ev }
  | .faulted => some { status := s.status, fcause := s.fcause, pc := s.pc, regs := s.regs, ev := s.ev }

/-- No hard error ended the run: STATUS = HALTED at its end (R200). -/
def endedWithoutHardError (s : State) : Prop := s.status = .halted

/-- No soft error was logged: EV contains only `Out` events (R200). -/
def noSoftError (s : State) : Prop := diagStream s.ev = []

/-- The invariants (1) to (4) of R41, for an engine that came to IDLE through reset (R228): in IDLE it is as reset left it,
and once a run has started `pc`, PROGLEN, STATUS and FCAUSE fit together. -/
structure RunInvariant (s : State) : Prop where
  /-- R228: an idle engine has `pc` 0, registers 0 and no events -/
  idleFresh : s.status = .idle → s.pc = 0 ∧ (∀ v ∈ s.regs, v = 0) ∧ s.ev = []
  /-- R41 (1), once a run has started -/
  pcBound : s.status ≠ .idle → s.pc.toNat ≤ s.progLen.toNat
  /-- R41 (1), once a run has started -/
  lenBound : s.status ≠ .idle → s.progLen.toNat ≤ s.imem.depth
  /-- R41 (2) -/
  faultedIff : s.status = .faulted ↔ s.fcause ≠ .none
  /-- R41 (3) -/
  haltedAtEnd : s.status = .halted → s.pc.toNat = s.progLen.toNat
  /-- R41 (4) -/
  faultedInside : s.status = .faulted → s.pc.toNat < s.progLen.toNat

end Sys2Proof.Machine
end

