-- ==== Sys2Proof/Certificates/Slice0/Obligations.lean ====
section
/-! DEFINITION. The statements for the provers, from the numbered rules of spec/. Where a statement rests on a choice of the
model or on a rule that the spec marks as derived, its docstring says so. -/

open Sys2Proof Sys2Proof.Machine

/-! ### Encoding (spec/30_encoding.md) -/

/-- Section 4: "For every instruction `t`, `Decode(Encode(t)) = t`" (a sentence the spec marks as derived from R71, R73, R78),
for every value of every operand. -/
def Obligations.DecodeOfEncodeIsTheInstruction : Prop :=
  ∀ i : Instr, decode (encode i) = .instr i

/-- Section 4: "for every word `w` with `Decode(w) != Illegal`, `Encode(Decode(w)) = w`" (marked as derived): no bit of a word
is dropped. -/
def Obligations.EncodeOfDecodeIsTheWord : Prop :=
  ∀ (w : IWord) (i : Instr), decode w = .instr i → encode i = w

/-- Section 3: the illegal encodings are exactly the four cases, each rejected under its own name. -/
def Obligations.IllegalWordsAreExactlyTheFourCases : Prop :=
  ∀ w : IWord,
    (decode w = .illegal .opcodeZero ↔ opcField w = 0) ∧
    (decode w = .illegal .opcodeReserved ↔ 8 ≤ (opcField w).toNat) ∧
    (decode w = .illegal .outOperandNotZero ↔ opcField w = 5 ∧ (bField w ≠ 0 ∨ cField w ≠ 0)) ∧
    (decode w = .illegal .linOperandNotZero ↔ opcField w = 6 ∧ cField w ≠ 0)

/-- The masks of the opcode table of R81. -/
def Sys2Proof.rowMask : Opcode → IWord
  | .add => 0x0000000000000000FFFFFFFF000000000000000000000000
  | .sub => 0x0000000000000000FFFFFFFF000000000000000000000000
  | .mul => 0x0000000000000000FFFFFFFF000000000000000000000000
  | .div => 0x0000000000000000FFFFFFFF000000000000000000000000
  | .out => 0x0000000000000000FFFFFFFF00000000FFFFFFFFFFFFFFFF
  | .lin => 0x0000000000000000FFFFFFFF0000000000000000FFFFFFFF
  | .bnz => 0x0000000000000000FFFFFFFF000000000000000000000000

/-- The match values of the opcode table of R81. -/
def Sys2Proof.rowMatch : Opcode → IWord
  | .add => 0x000000000000000000000001000000000000000000000000
  | .sub => 0x000000000000000000000002000000000000000000000000
  | .mul => 0x000000000000000000000003000000000000000000000000
  | .div => 0x000000000000000000000004000000000000000000000000
  | .out => 0x000000000000000000000005000000000000000000000000
  | .lin => 0x000000000000000000000006000000000000000000000000
  | .bnz => 0x000000000000000000000007000000000000000000000000

/-- R81: a word is the instruction of a row exactly when its masked bits are the row's match value; the rows are disjoint, and
a word that matches no row is illegal. -/
def Obligations.OpcodeTableRowsDecide : Prop :=
  ∀ w : IWord,
    (∀ o : Opcode, w &&& rowMask o = rowMatch o ↔ ∃ i, decode w = .instr i ∧ opcodeOf i = o) ∧
    (∀ o o' : Opcode, w &&& rowMask o = rowMatch o → w &&& rowMask o' = rowMatch o' → o = o') ∧
    ((∀ o : Opcode, w &&& rowMask o ≠ rowMatch o) → ∃ why, decode w = .illegal why)

/-- A few words of the spec's own listings, one per family (spec/95_test_vectors.md E1, E3, E4, E7, E8, E12, E15). -/
def Obligations.ListedWordsDecode : Prop :=
  decode 0x663000000000000000000006000000140000000600000000 = .instr (.lin 0x6630000000000000 20 6) ∧
  decode 0x663300000000000000000003000000150000001500000014 = .instr (.mul 0x6633000000000000 21 21 20) ∧
  decode 0x663500000000000000000007000000146633000000000000 = .instr (.bnz 0x6635000000000000 20 0x6633000000000000) ∧
  decode 0x663600000000000000000005000000150000000000000000 = .instr (.out 0x6636000000000000 21) ∧
  decode 0x610000000000000000000004000000460000000100000048 = .instr (.div 0x6100000000000000 70 1 72) ∧
  decode 0 = .illegal .opcodeZero ∧
  decode 0x610000000000000000000005000000010000000080000000 = .illegal .outOperandNotZero

/-- Section 3: the serialised forms of a word: byte `k` of 24 is `iw[191 - 8k : 184 - 8k]`, and both forms read back. -/
def Obligations.SerialisedWordReadsBack : Prop :=
  ∀ w : IWord,
    (toBytes w).length = 24 ∧ (∀ k < 24, (toBytes w)[k]? = some (w.extractLsb' (184 - 8 * k) 8)) ∧
    ofBytes (toBytes w) = some w ∧ ofWords (toWords w) = some w

/-- Section 2: "two names have equal tags exactly when they are equal byte for byte", for names of 1 to 8 bytes without a zero
byte; any other name has no tag. -/
def Obligations.TagEqualityIsNameEquality : Prop :=
  (∀ n : Name, (tagOfName n).isSome ↔ 1 ≤ n.length ∧ n.length ≤ 8 ∧ ∀ b ∈ n, b ≠ 0) ∧
  ∀ (a b : Name) (ta tb : Tag), tagOfName a = some ta → tagOfName b = some tb → (ta = tb ↔ a = b)

/-- The tags of names are exactly the tags the well-formedness check accepts, and a tag spells its name. -/
def Obligations.NameTagsSpellTheirNames : Prop :=
  ∀ t : Tag,
    (isNameTag t = true → tagOfName (nameOfTag t) = some t) ∧
    (∀ n : Name, tagOfName n = some t → isNameTag t = true ∧ nameOfTag t = n)

/-! ### Register file, label table, memory (spec/10_state.md) -/

/-- R24: `RegRead`. In range: the register, and no change. Out of range: 0, and exactly one event. -/
def Obligations.RegReadChecksItsBounds : Prop :=
  ∀ (i : Word) (s : State),
    (0 ≤ i.toInt ∧ i.toInt < s.regs.length →
      regRead i s = (s.regs.getD i.toInt.toNat 0, s)) ∧
    (i.toInt < 0 ∨ s.regs.length ≤ i.toInt →
      regRead i s = (0, { s with ev := s.ev ++ [.invalidRegister .read s.pc (lblField (s.imem.read s.pc.toNat)) i] }))

/-- R25: `RegWrite`. In range: that register and no other. Out of range: no register changes, and exactly one event. -/
def Obligations.RegWriteChecksItsBounds : Prop :=
  ∀ (i v : Word) (s : State),
    (0 ≤ i.toInt ∧ i.toInt < s.regs.length →
      (∀ k < s.regs.length, (regWrite i v s).regs.getD k 0 = if (k : Int) = i.toInt then v else s.regs.getD k 0) ∧
      { regWrite i v s with regs := s.regs } = s ∧ (regWrite i v s).regs.length = s.regs.length) ∧
    (i.toInt < 0 ∨ s.regs.length ≤ i.toInt →
      regWrite i v s =
        { s with ev := s.ev ++ [.invalidRegister .write s.pc (lblField (s.imem.read s.pc.toNat)) i] })

/-- Section 5: "in a well-formed image at most one index matches": the lookup of an instruction's label gives its index. -/
def Obligations.LookupFindsEachLabelAtItsIndex : Prop :=
  ∀ (depth : Nat) (s : State), imageWellFormed depth (loadedImage s) = true →
    ∀ k < s.progLen.toNat, labelLookup (lblField (s.imem.read k)) s = some k

/-- R33: the lookup answers the lowest index below PROGLEN whose word has the tag, and misses exactly when there is none; a
duplicate label or the zero tag is compared like any other. -/
def Obligations.LookupAnswersTheLowestIndex : Prop :=
  ∀ (t : Tag) (s : State),
    (∀ k, k < s.progLen.toNat → lblField (s.imem.read k) = t → (∀ j < k, lblField (s.imem.read j) ≠ t) →
      labelLookup t s = some k) ∧
    ((∀ k < s.progLen.toNat, lblField (s.imem.read k) ≠ t) → labelLookup t s = none)

/-- The canonical form of the instruction memory is one form: two memories in it that have the same depth and list the same
words at the same indices are equal data (assumption logs 1 and 2). -/
def Obligations.CanonicalMemoriesWithEqualEntriesAreEqual : Prop :=
  ∀ m m' : Memory, m.wf = true → m'.wf = true → m.depth = m'.depth →
    (∀ i, cellGet m.cells i = cellGet m'.cells i) → m = m'

/-- The instruction memory keeps its canonical form in every clock cycle, whatever the host does on the ports. -/
def Obligations.MemoryStaysCanonicalInEveryCycle : Prop :=
  ∀ (p : PortsIn) (s t : State), s.imem.wf = true → cycle p s = .next t → t.imem.wf = true ∧ t.imem.depth = s.imem.depth

/-- After reset the instruction memory is in canonical form. -/
def Obligations.ResetMemoryIsCanonical : Prop := State.reset.imem.wf = true

/-! ### Arithmetic (spec/41_arithmetic.md) -/

/-- Section 5 of spec/00_scope.md: `wrap(n)` is the one value in `MIN..MAX` congruent to `n` modulo 2^32. -/
def Obligations.WrapIsTheCongruentValueInRange : Prop :=
  ∀ n : Int, minInt ≤ (wrap n).toInt ∧ (wrap n).toInt ≤ maxInt ∧ (2 ^ 32 : Int) ∣ n - (wrap n).toInt ∧
    ∀ m : Int, minInt ≤ m → m ≤ maxInt → (2 ^ 32 : Int) ∣ n - m → m = (wrap n).toInt

/-- R131: `tdiv(a, b)` is the unique `q` with `a = q * b + rem`, `|rem| < |b|`, and `rem` 0 or of the sign of `a`. -/
def Obligations.TdivIsTheQuotientRoundedTowardZero : Prop :=
  ∀ a b q : Int, b ≠ 0 →
    (tdiv a b = q ↔ ∃ rem : Int, a = q * b + rem ∧ rem.natAbs < b.natAbs ∧ (rem = 0 ∨ rem.sign = a.sign)) ∧
    tdiv a b = a.sign * b.sign * ((a.natAbs / b.natAbs : Nat) : Int)

/-- Section 2, corner case (6) of `div` (the spec's decision D3): MIN / -1 is the only overflow case of the division. -/
def Obligations.DivisionOverflowsOnlyForMinByMinusOne : Prop :=
  ∀ a b : Word, b ≠ 0 →
    ((wrap (tdiv a.toInt b.toInt)).toInt = tdiv a.toInt b.toInt ∨ a.toInt = minInt ∧ b.toInt = -1) ∧
    (a.toInt = minInt → b.toInt = -1 → (wrap (tdiv a.toInt b.toInt)).toInt = minInt)

/-- R132: `add r s1 s2`, its word and its whole effect: the wrapped sum (D2) to `r`, the events in order, `pc + 1`. -/
def Obligations.AddWritesTheWrappedSum : Prop :=
  ∀ (l : Tag) (r s1 s2 : Word) (s : State),
    decode (mkWord l 1 r s1 s2) = .instr (.add l r s1 s2) ∧
    ∃ v : Word, v.toInt = ((readValue s1 s).toInt + (readValue s2 s).toInt).bmod (2 ^ 32) ∧
      exec (.add l r s1 s2) s = .next
        { s with
          regs := writtenRegs r v s
          pc := s.pc + 1
          ev := s.ev ++ readLog s1 s ++ readLog s2 s ++ writeLog r s }

/-- R133: `sub r s1 s2`, its word and its whole effect: the wrapped difference (D2), `s1` the minuend. -/
def Obligations.SubWritesTheWrappedDifference : Prop :=
  ∀ (l : Tag) (r s1 s2 : Word) (s : State),
    decode (mkWord l 2 r s1 s2) = .instr (.sub l r s1 s2) ∧
    ∃ v : Word, v.toInt = ((readValue s1 s).toInt - (readValue s2 s).toInt).bmod (2 ^ 32) ∧
      exec (.sub l r s1 s2) s = .next
        { s with
          regs := writtenRegs r v s
          pc := s.pc + 1
          ev := s.ev ++ readLog s1 s ++ readLog s2 s ++ writeLog r s }

/-- R134: `mul r s1 s2`, its word and its whole effect: the low 32 bits of the product (D2). -/
def Obligations.MulWritesTheWrappedProduct : Prop :=
  ∀ (l : Tag) (r s1 s2 : Word) (s : State),
    decode (mkWord l 3 r s1 s2) = .instr (.mul l r s1 s2) ∧
    ∃ v : Word, v.toInt = ((readValue s1 s).toInt * (readValue s2 s).toInt).bmod (2 ^ 32) ∧
      exec (.mul l r s1 s2) s = .next
        { s with
          regs := writtenRegs r v s
          pc := s.pc + 1
          ev := s.ev ++ readLog s1 s ++ readLog s2 s ++ writeLog r s }

/-- R135: `div r s1 s2`, its word and its whole effect. Divisor not 0: the truncated quotient, wrapped (D3). Divisor 0, read
from a register or from an index out of range: DivisionByZero, after both reads' events, nothing written, `pc` kept. -/
def Obligations.DivWritesTheTruncatedQuotientOrFaults : Prop :=
  ∀ (l : Tag) (r s1 s2 : Word) (s : State),
    decode (mkWord l 4 r s1 s2) = .instr (.div l r s1 s2) ∧
    (readValue s2 s ≠ 0 → ∃ (q rem : Int) (v : Word),
      (readValue s1 s).toInt = q * (readValue s2 s).toInt + rem ∧ rem.natAbs < (readValue s2 s).toInt.natAbs ∧
      (rem = 0 ∨ rem.sign = (readValue s1 s).toInt.sign) ∧ v.toInt = q.bmod (2 ^ 32) ∧
      exec (.div l r s1 s2) s = .next
        { s with
          regs := writtenRegs r v s
          pc := s.pc + 1
          ev := s.ev ++ readLog s1 s ++ readLog s2 s ++ writeLog r s }) ∧
    (readValue s2 s = 0 →
      exec (.div l r s1 s2) s = .next
        { s with
          status := .faulted
          fcause := .divisionByZero
          ev := s.ev ++ readLog s1 s ++ readLog s2 s })

/-- The frame of the four arithmetic instructions: of the registers only `r` may change, and only if it is in range; the
program, PROGLEN and every instruction memory entry stay; STATUS and FCAUSE stay but for a `div` by 0; the log is only
appended to, and nothing goes to the output sink. -/
def Obligations.ArithmeticFrame : Prop :=
  ∀ (l : Tag) (r s1 s2 : Word) (i : Instr) (s t : State),
    i = .add l r s1 s2 ∨ i = .sub l r s1 s2 ∨ i = .mul l r s1 s2 ∨ i = .div l r s1 s2 →
    exec i s = .next t →
    (∀ k : Nat, ¬ (inFile r s ∧ k = r.toInt.toNat) → t.regs.getD k 0 = s.regs.getD k 0) ∧
    t.regs.length = s.regs.length ∧
    (∀ a : Nat, t.imem.read a = s.imem.read a) ∧ t.imem = s.imem ∧ t.progLen = s.progLen ∧
    (i ≠ .div l r s1 s2 ∨ readValue s2 s ≠ 0 → t.status = s.status ∧ t.fcause = s.fcause) ∧
    s.ev <+: t.ev ∧ outStream t.ev = outStream s.ev

/-! ### `lin`, `out`, `bnz` -/

/-- R120: `lin r x`, its word and its whole effect: `x` unchanged to `r`, `pc + 1`; an out-of-range `r` is reported. -/
def Obligations.LinWritesTheImmediate : Prop :=
  ∀ (l : Tag) (r x : Word) (s : State),
    decode (mkWord l 6 r x 0) = .instr (.lin l r x) ∧
    exec (.lin l r x) s = .next
      { s with
        regs := writtenRegs r x s
        pc := s.pc + 1
        ev := s.ev ++ writeLog r s }

/-- The frame of `lin`: of the registers only `r` may change, and only if it is in range; nothing else but `pc` and the log. -/
def Obligations.LinFrame : Prop :=
  ∀ (l : Tag) (r x : Word) (s t : State), exec (.lin l r x) s = .next t →
    (∀ k : Nat, ¬ (inFile r s ∧ k = r.toInt.toNat) → t.regs.getD k 0 = s.regs.getD k 0) ∧
    t.regs.length = s.regs.length ∧
    (∀ a : Nat, t.imem.read a = s.imem.read a) ∧ t.imem = s.imem ∧ t.progLen = s.progLen ∧
    t.status = s.status ∧ t.fcause = s.fcause ∧ s.ev <+: t.ev ∧ outStream t.ev = outStream s.ev

/-- R150: `out s1`, its word and its whole effect: the value read is emitted after any event of the read, `pc + 1`. -/
def Obligations.OutEmitsTheValueRead : Prop :=
  ∀ (l : Tag) (s1 : Word) (s : State),
    decode (mkWord l 5 s1 0 0) = .instr (.out l s1) ∧
    exec (.out l s1) s = .next
      { s with
        pc := s.pc + 1
        ev := s.ev ++ readLog s1 s ++ [.out (readValue s1 s)] }

/-- R160: `bnz s1 L`, its word and its whole effect. Value 0: falls through. Value not 0: to the lowest index that carries `L`,
with no increment; if no instruction carries `L`, one InvalidLabel event, and falls through. -/
def Obligations.BnzBranchesWhenNotZero : Prop :=
  ∀ (l : Tag) (s1 : Word) (target : Tag) (s : State),
    decode (mkWord l 7 s1 (tagHigh target) (tagLow target)) = .instr (.bnz l s1 target) ∧
    (readValue s1 s = 0 →
      exec (.bnz l s1 target) s = .next { s with pc := s.pc + 1, ev := s.ev ++ readLog s1 s }) ∧
    (readValue s1 s ≠ 0 →
      (∀ k, k < s.progLen.toNat → lblField (s.imem.read k) = target →
        (∀ j < k, lblField (s.imem.read j) ≠ target) →
        exec (.bnz l s1 target) s = .next { s with pc := BitVec.ofNat 32 k }) ∧
      ((∀ k < s.progLen.toNat, lblField (s.imem.read k) ≠ target) →
        exec (.bnz l s1 target) s = .next
          { s with
            pc := s.pc + 1
            ev := s.ev ++ [.invalidLabel s.pc (lblField (s.imem.read s.pc.toNat)) target] }))

/-- The frame of `out` and `bnz`: no register, no program word, no control register changes; the log is only appended to. -/
def Obligations.OutAndBnzFrame : Prop :=
  ∀ (l : Tag) (s1 : Word) (target : Tag) (i : Instr) (s t : State),
    i = .out l s1 ∨ i = .bnz l s1 target → exec i s = .next t →
    t.regs = s.regs ∧ (∀ a : Nat, t.imem.read a = s.imem.read a) ∧ t.imem = s.imem ∧ t.progLen = s.progLen ∧
    t.status = s.status ∧ t.fcause = s.fcause ∧ s.ev <+: t.ev ∧
    (i = .bnz l s1 target → outStream t.ev = outStream s.ev)

/-- spec/40_load_immediate.md, the rule on `lin` followed by `out` (which the spec marks as derived): `lin r x` and then `out r`
emits exactly `x` for `r` in range; out of range it emits two InvalidRegister events, that of the write at the `lin` and that of
the read at the `out`, and then 0, whatever `x` is. -/
def Obligations.LinThenOutEmitsTheImmediate : Prop :=
  ∀ (l l' : Tag) (r x : Word) (s t u : State), exec (.lin l r x) s = .next t → exec (.out l' r) t = .next u →
    (inFile r s → u.ev = s.ev ++ [.out x]) ∧
    (¬ inFile r s →
      u.ev = s.ev ++ [.invalidRegister .write s.pc (labelAtPc s) r, .invalidRegister .read t.pc (labelAtPc t) r, .out 0])

/-! ### The step (spec/10_state.md R42, spec/60_exceptions.md) -/

/-- A step runs the instruction that the word at `pc` decodes to: a running step inside the program is `exec` of it, with
nothing added around it (every instruction rule writes `pc` itself). -/
def Obligations.StepRunsTheDecodedInstruction : Prop :=
  ∀ (s : State) (i : Instr), s.status = .running → s.pc.toNat < s.progLen.toNat →
    decode (s.imem.read s.pc.toNat) = .instr i → step s = exec i s

/-- R42: the loop test first, then decode, then the instruction, each with its whole effect; and in IDLE, HALTED and FAULTED
the state does not change. -/
def Obligations.StepFollowsTheLoop : Prop :=
  ∀ s : State,
    (s.status = .running →
      (s.progLen.toNat ≤ s.pc.toNat → step s = .next { s with status := .halted }) ∧
      (s.pc.toNat < s.progLen.toNat →
        (∀ why, decode (s.imem.read s.pc.toNat) = .illegal why →
          step s = .next { s with status := .faulted, fcause := .illegalInstruction }) ∧
        (∀ i, decode (s.imem.read s.pc.toNat) = .instr i → step s = exec i s))) ∧
    (s.status ≠ .running → ∀ t, step s = .next t → t = s)

/-- An engine that is not running keeps its state, for any number of steps. Rests on the model's choice to answer such a step
with the same state (assumption log 6). -/
def Obligations.EngineNotRunningKeepsItsState : Prop :=
  ∀ (s : State) (k : Nat), s.status ≠ .running → core.run k s = .next s

/-- The word placed for the host is the one the next step runs. Rests on the model's placing (assumption log 25). -/
def Obligations.StepRunsThePlacedWord : Prop :=
  ∀ (s : State) (nbits w : Nat) (i : Instr), decodeTableWord nbits w = some i →
    step (s.withFetchWord nbits w) = exec i (s.withFetchWord nbits w)

/-- From every state, sound or not, a step answers a next state, never a fault of the model and never a refusal. For a RUNNING
engine this is spec/70_reset_and_hazards.md section 5: "a RUNNING engine always has an enabled `Step` and performs it", with a hard
error as a next state by the model's reading (DEDUCED, assumption log 7). In IDLE, HALTED and FAULTED the spec has no step, and
that the model's step answers the same state there is the model's choice (assumption log 6). -/
def Obligations.EveryStepAnswersANextState : Prop :=
  ∀ s : State, ∃ t : State, step s = .next t

/-- spec/10_state.md section 9 (a rule the spec marks as derived): every step keeps the invariants of the reachable states. -/
def Obligations.RunInvariantIsKeptByEveryStep : Prop :=
  ∀ s t : State, RunInvariant s → step s = .next t → RunInvariant t

/-- The same for every clock cycle with every input on the host's ports: load, start and reset included. -/
def Obligations.RunInvariantIsKeptByEveryCycle : Prop :=
  ∀ (p : PortsIn) (s t : State), RunInvariant s → cycle p s = .next t → RunInvariant t

/-- The state after reset meets the invariants. -/
def Obligations.RunInvariantHoldsAtReset : Prop := RunInvariant State.reset

/-- spec/20_memory.md section 7, spec/10_state.md section 9 (5): no step changes the program, PROGLEN or the sizes of the
register file and the instruction memory. -/
def Obligations.NoStepChangesTheProgram : Prop :=
  ∀ s t : State, step s = .next t →
    t.imem = s.imem ∧ t.progLen = s.progLen ∧ t.regs.length = s.regs.length

/-- spec/60_exceptions.md section 5: a step appends to the log at most three diagnostic events and at most one `Out` event,
the `Out` event last. -/
def Obligations.StepAppendsAtMostThreeReportsThenOneOutput : Prop :=
  ∀ s t : State, step s = .next t → ∃ new : List Event, t.ev = s.ev ++ new ∧
    (diagStream new).length ≤ 3 ∧ (outStream new).length ≤ 1 ∧
    new = diagStream new ++ (outStream new).map .out

/-- R187: faults are precise. A running step that ends FAULTED has written no register, has kept `pc` and the program, and has
appended nothing but read reports of its own; and no later step changes the state. -/
def Obligations.FaultsArePrecise : Prop :=
  ∀ s t : State, s.status = .running → step s = .next t → t.status = .faulted →
    t.regs = s.regs ∧ t.pc = s.pc ∧ t.imem = s.imem ∧ t.progLen = s.progLen ∧
    ∃ new : List Event, t.ev = s.ev ++ new ∧
      (∀ e ∈ new, ∃ idx, e = .invalidRegister .read s.pc (lblField (s.imem.read s.pc.toNat)) idx) ∧
      ∀ u : State, step t = .next u → u = t

/-- A run ends in a hard error exactly at an illegal word or at a `div` whose divisor reads 0, each with its own cause, and it
halts exactly when `pc` has run off the end: no soft error, no overflow and no instruction ends it otherwise. -/
def Obligations.RunsEndOnlyAtTheEndOrAtAHardError : Prop :=
  ∀ s t : State, s.status = .running → s.fcause = .none → step s = .next t →
    (t.status = .halted ↔ s.progLen.toNat ≤ s.pc.toNat) ∧
    (t.fcause = .illegalInstruction ↔
      s.pc.toNat < s.progLen.toNat ∧ ∃ why, decode (s.imem.read s.pc.toNat) = .illegal why) ∧
    (t.fcause = .divisionByZero ↔
      s.pc.toNat < s.progLen.toNat ∧
        ∃ l r s1 s2, decode (s.imem.read s.pc.toNat) = .instr (.div l r s1 s2) ∧ readValue s2 s = 0) ∧
    (t.status = .faulted ↔ t.fcause ≠ .none) ∧ t.status ≠ .idle

/-- spec/43_branch.md: "`Bnz` is the only control-transfer primitive." A step that takes `pc` anywhere but to the next index
or to the same one is a `bnz`, and it lands on an instruction of the program that carries its label. -/
def Obligations.OnlyBnzTransfersControl : Prop :=
  ∀ s t : State, step s = .next t → t.pc ≠ s.pc → t.pc ≠ s.pc + 1 →
    ∃ l s1 target, decode (s.imem.read s.pc.toNat) = .instr (.bnz l s1 target) ∧ readValue s1 s ≠ 0 ∧
      t.pc.toNat < s.progLen.toNat ∧ lblField (s.imem.read t.pc.toNat) = target

/-- spec/10_state.md section 7: "No instruction reads `EV`": a step from a state with another log does the same and appends
the same. -/
def Obligations.NoInstructionReadsTheEventLog : Prop :=
  ∀ (s t : State) (log : List Event), step s = .next t → ∃ new : List Event,
    t.ev = s.ev ++ new ∧ step { s with ev := log } = .next { t with ev := log ++ new }

/-- spec/10_state.md section 5: "Entries at index `PROGLEN` and above are never read by the engine": a step over a memory that
agrees below PROGLEN does the same. -/
def Obligations.WordsAtAndAboveProglenAreNeverRead : Prop :=
  ∀ (s t : State) (m : Memory), (∀ i < s.progLen.toNat, m.read i = s.imem.read i) →
    step s = .next t → step { s with imem := m } = .next { t with imem := m }

/-- spec/60_exceptions.md section 3: IllegalInstruction "cannot occur on a well-formed image". -/
def Obligations.WellFormedImageNeverRaisesIllegalInstruction : Prop :=
  ∀ (depth : Nat) (s t : State), imageWellFormed depth (loadedImage s) = true → s.fcause ≠ .illegalInstruction →
    step s = .next t → t.fcause ≠ .illegalInstruction ∧ imageWellFormed depth (loadedImage t) = true

/-! ### Reset and the host interface (spec/70_reset_and_hazards.md) -/

/-- spec/70_reset_and_hazards.md section 1: reset, in any state: every register 0, `pc` 0, IDLE, no cause, an empty log, IMEM and
PROGLEN not changed; and it is the only way out of HALTED and FAULTED and the only way to stop a RUNNING engine before its run
ends. In a cycle with `rst` in which the host also writes through the load port in IDLE, that IMEM and PROGLEN are kept, so that
the write is lost, is the model's choice (DESIGN CHOICE, assumption log 10): the spec says only that reset does not change them. -/
def Obligations.ResetClearsAllButTheProgram : Prop :=
  ∀ (p : PortsIn) (s t : State), cycle p s = .next t →
    (p.rst = true →
      t.pc = 0 ∧ t.regs.length = s.regs.length ∧ (∀ v ∈ t.regs, v = 0) ∧ t.status = .idle ∧ t.fcause = .none ∧
      t.ev = [] ∧ t.imem = s.imem ∧ t.progLen = s.progLen) ∧
    (p.rst = false →
      (s.status = .halted ∨ s.status = .faulted → t = s) ∧ (s.status = .running → step s = .next t ∧ t.status ≠ .idle))

/-- The state after reset: what the spec gives (registers, `pc`, STATUS, FCAUSE, EV), the default sizes, and the model's own
choices PROGLEN 0 (assumption log 3) and an instruction memory that lists nothing (assumption log 2); and resetting it again
changes nothing. -/
def Obligations.ResetStateIsAFreshEngine : Prop :=
  State.reset.regs.length = 64 ∧ (∀ v ∈ State.reset.regs, v = 0) ∧ State.reset.pc = 0 ∧
  State.reset.status = .idle ∧ State.reset.fcause = .none ∧ State.reset.ev = [] ∧
  State.reset.progLen = 0 ∧ State.reset.imem = { depth := 65536, cells := [] } ∧
  assertReset State.reset = State.reset

/-- R227: the load port. Outside IDLE a write is ignored and changes nothing: the cycle is what it is without the write. In IDLE
it writes one entry below IMEM_DEPTH, or PROGLEN with any value, and nothing at or above IMEM_DEPTH. -/
def Obligations.LoadPortWritesOnlyInIdle : Prop :=
  ∀ (p : PortsIn) (s t : State), p.rst = false → cycle p s = .next t →
    (s.status ≠ .idle → cycle { p with ldWe := !p.ldWe } s = .next t) ∧
    (s.status ≠ .idle ∨ p.ldWe = false → t.imem = s.imem ∧ t.progLen = s.progLen) ∧
    (s.status = .idle → p.ldWe = true →
      (p.ldSel = false → p.ldAddr.toNat < s.imem.depth →
        t.progLen = s.progLen ∧
        ∀ a : Nat, t.imem.read a = if a = p.ldAddr.toNat then p.ldData else s.imem.read a) ∧
      (p.ldSel = false → s.imem.depth ≤ p.ldAddr.toNat → t.progLen = s.progLen ∧ t.imem = s.imem) ∧
      (p.ldSel = true → t.progLen.toNat = p.ldData.toNat % 2 ^ 32 ∧ t.imem = s.imem))

/-- R228: `start` in IDLE with PROGLEN <= IMEM_DEPTH, as a load write of the same cycle leaves them, sets RUNNING and changes
nothing else, so that a run of an engine that came to IDLE through reset begins with `pc` 0, registers 0, no cause and an empty
log; with a greater PROGLEN it is refused; in any other state it is ignored. -/
def Obligations.StartIsHonouredOnlyInIdle : Prop :=
  ∀ (p : PortsIn) (s t : State), p.rst = false → cycle p s = .next t →
    (s.status = .idle →
      t.pc = s.pc ∧ t.regs = s.regs ∧ t.fcause = s.fcause ∧ t.ev = s.ev ∧
      cycle { p with start := false } s = .next { t with status := .idle } ∧
      (p.start = true ∧ t.progLen.toNat ≤ t.imem.depth → t.status = .running) ∧
      (p.start = false ∨ t.imem.depth < t.progLen.toNat → t.status = .idle) ∧
      (s = assertReset s → t.pc = 0 ∧ (∀ v ∈ t.regs, v = 0) ∧ t.fcause = .none ∧ t.ev = [])) ∧
    (s.status ≠ .idle → cycle { p with start := !p.start } s = .next t)

/-- Section 2 and the end of the start rule: the boot sequence (reset, load, start) of an image that fits gives a running
engine at index 0 with registers 0 and an empty log that holds exactly the image, whatever state it was in before. -/
def Obligations.BootStartsTheLoadedImage : Prop :=
  ∀ (img : Image) (s : State), img.words.length ≤ s.imem.depth → s.imem.depth ≤ 2 ^ 31 - 1 →
    (boot img s).status = .running ∧ (boot img s).pc = 0 ∧ (∀ v ∈ (boot img s).regs, v = 0) ∧
    (boot img s).regs.length = s.regs.length ∧ (boot img s).fcause = .none ∧ (boot img s).ev = [] ∧
    (boot img s).progLen.toNat = img.words.length ∧ loadedImage (boot img s) = img

/-- Section 3, the output sink port: over a cycle without reset, the output stream grows by exactly what the port shows. -/
def Obligations.OutputPortCarriesTheOutputStream : Prop :=
  ∀ (p : PortsIn) (s t : State), p.rst = false → cycle p s = .next t →
    outStream t.ev = outStream s.ev ++ (outputs p s).outData.toList ∧
    (outValid (outputs p s) = true ↔ ∃ v, outStream t.ev = outStream s.ev ++ [v])

/-- R231: over a cycle without reset, the records of the diagnostic stream grow by the lanes in use, lane 0 first; there are at
most three, a prefix; and a record is `kind, at, lbl, info` in that order. -/
def Obligations.DiagnosticPortCarriesTheReports : Prop :=
  (∀ (p : PortsIn) (s t : State), p.rst = false → cycle p s = .next t →
    (diagStream t.ev).filterMap diagRecord = (diagStream s.ev).filterMap diagRecord ++ (outputs p s).diagLanes ∧
    (outputs p s).diagLanes.length ≤ 3 ∧
    (∀ k, diagValid (k + 1) (outputs p s) = true → diagValid k (outputs p s) = true)) ∧
  (∀ (k : AccessKind) (site : PcWord) (lbl : Tag) (idx : Word), ∃ r : DiagRec,
    diagRecord (.invalidRegister k site lbl idx) = some r ∧
    r.extractLsb' 160 2 = (match k with | .read => 1 | .write => 2) ∧ r.extractLsb' 128 32 = site ∧
    r.extractLsb' 64 64 = lbl ∧ (r.extractLsb' 0 64).toInt = idx.toInt) ∧
  (∀ (site : PcWord) (lbl target : Tag), ∃ r : DiagRec,
    diagRecord (.invalidLabel site lbl target) = some r ∧
    r.extractLsb' 160 2 = 3 ∧ r.extractLsb' 128 32 = site ∧ r.extractLsb' 64 64 = lbl ∧ r.extractLsb' 0 64 = target)

/-- Section 3: the status outputs show the registers continuously with the codes of STATUS and FCAUSE, and the debug port shows
a register, or 0 beyond the file, at any time. The spec calls the debug port meaningful when STATUS is not RUNNING; that it shows
a RUNNING engine's registers too is read from the host's right to read them at any time (DEDUCED, assumption log 26). -/
def Obligations.StatusPortsShowTheRegisters : Prop :=
  ∀ (p : PortsIn) (s : State),
    (outputs p s).pcOut = s.pc ∧
    ((outputs p s).status = 0 ↔ s.status = .idle) ∧ ((outputs p s).status = 1 ↔ s.status = .running) ∧
    ((outputs p s).status = 2 ↔ s.status = .halted) ∧ ((outputs p s).status = 3 ↔ s.status = .faulted) ∧
    ((outputs p s).fcause = 0 ↔ s.fcause = .none) ∧ ((outputs p s).fcause = 1 ↔ s.fcause = .divisionByZero) ∧
    ((outputs p s).fcause = 2 ↔ s.fcause = .illegalInstruction) ∧
    (outputs p s).dbgRdata = (if p.dbgRaddr.toNat < s.regs.length then s.regs.getD p.dbgRaddr.toNat 0 else 0)

/-! ### The assembler (spec/30_encoding.md Part B) -/

/-- Section 6: an image the assembler produces is well formed, with every one of the five conditions (the condition on names is
read as assumption log 16 says). -/
def Obligations.AssembledImageIsWellFormed : Prop :=
  ∀ (depth : Nat) (source : Option (List (List Byte))) (img : Image),
    assemble depth source = .ok img → imageWellFormed depth img = true

/-- Decimal spelling reads back: every integer is the integer its minimal signed decimal spelling is parsed as. -/
def Obligations.DecimalSpellingReadsBack : Prop :=
  ∀ n : Int, parseInt (decimalInt n) = some n

/-- A label or a branch target that can be a token: not empty, and without whitespace (R91). -/
def Sys2Proof.isTokenName (n : Name) : Prop := n ≠ [] ∧ ∀ b ∈ n, isSpace b = false

/-- The names of an abstract instruction can be tokens. -/
def Sys2Proof.hasTokenNames (i : SrcInstr) : Prop :=
  isTokenName (srcLabel i) ∧ ∀ l s1 t, i = .bnz l s1 t → isTokenName t

/-- The round trip of spec/95_test_vectors.md S8, as translation: a program written out line by line from its labels, mnemonics,
integers and branch targets is translated to itself. -/
def Obligations.WrittenProgramTranslatesToItself : Prop :=
  ∀ prog : List SrcInstr, (∀ i ∈ prog, hasTokenNames i) → (prog.map srcLabel).Nodup →
    translate (some (prog.map sourceLine)) = .ok prog

/-- R97: after lines that translate, a line whose label an earlier line has fails with both line numbers, counted from 1, and
no later line is looked at. -/
def Obligations.DuplicateLabelFailsWithBothLines : Prop :=
  ∀ (lines rest : List (List Byte)) (line : List Byte) (prog : List SrcInstr) (l : Name) (toks : List Token) (k : Nat),
    translate (some lines) = .ok prog → tokens line = l :: toks → (prog.map srcLabel)[k]? = some l →
    translate (some (lines ++ line :: rest)) = .error (.duplicateLabel (k + 1) (lines.length + 1))

/-- R106: the empty program: an empty source assembles to PROGLEN 0 and no words, and its run ends in one step with no side
effect. -/
def Obligations.EmptySourceIsTheEmptyProgram : Prop :=
  (∀ depth : Nat, assemble depth (some []) = .ok { words := [] }) ∧
  ∀ s : State, (boot { words := [] } s).progLen = 0 ∧ (boot { words := [] } s).status = .running ∧
    step (boot { words := [] } s) = .next { boot { words := [] } s with status := .halted }
end

