-- ==== Sys2Proof/Laws/State.lean ====
section
/-! SUPPORT. One lemma per field of State per update, true by rfl, so that no later proof unfolds a record update; and the
fetch, label and range views that depend on a few fields only. -/

namespace Sys2Proof.Machine

variable (s : State)

@[simp] theorem emit_regs (e : Event) : (emit e s).regs = s.regs := rfl
@[simp] theorem emit_pc (e : Event) : (emit e s).pc = s.pc := rfl
@[simp] theorem emit_imem (e : Event) : (emit e s).imem = s.imem := rfl
@[simp] theorem emit_progLen (e : Event) : (emit e s).progLen = s.progLen := rfl
@[simp] theorem emit_status (e : Event) : (emit e s).status = s.status := rfl
@[simp] theorem emit_fcause (e : Event) : (emit e s).fcause = s.fcause := rfl
@[simp] theorem emit_ev (e : Event) : (emit e s).ev = s.ev ++ [e] := rfl

@[simp] theorem advance_regs : (advance s).regs = s.regs := rfl
@[simp] theorem advance_pc : (advance s).pc = s.pc + 1 := rfl
@[simp] theorem advance_imem : (advance s).imem = s.imem := rfl
@[simp] theorem advance_progLen : (advance s).progLen = s.progLen := rfl
@[simp] theorem advance_status : (advance s).status = s.status := rfl
@[simp] theorem advance_fcause : (advance s).fcause = s.fcause := rfl
@[simp] theorem advance_ev : (advance s).ev = s.ev := rfl

@[simp] theorem branchTo_regs (t : Nat) : (branchTo t s).regs = s.regs := rfl
@[simp] theorem branchTo_pc (t : Nat) : (branchTo t s).pc = BitVec.ofNat 32 t := rfl
@[simp] theorem branchTo_imem (t : Nat) : (branchTo t s).imem = s.imem := rfl
@[simp] theorem branchTo_progLen (t : Nat) : (branchTo t s).progLen = s.progLen := rfl
@[simp] theorem branchTo_status (t : Nat) : (branchTo t s).status = s.status := rfl
@[simp] theorem branchTo_fcause (t : Nat) : (branchTo t s).fcause = s.fcause := rfl
@[simp] theorem branchTo_ev (t : Nat) : (branchTo t s).ev = s.ev := rfl

@[simp] theorem halt_regs : (halt s).regs = s.regs := rfl
@[simp] theorem halt_pc : (halt s).pc = s.pc := rfl
@[simp] theorem halt_imem : (halt s).imem = s.imem := rfl
@[simp] theorem halt_progLen : (halt s).progLen = s.progLen := rfl
@[simp] theorem halt_status : (halt s).status = .halted := rfl
@[simp] theorem halt_fcause : (halt s).fcause = s.fcause := rfl
@[simp] theorem halt_ev : (halt s).ev = s.ev := rfl

@[simp] theorem raise_regs (f : HardError) : (raise f s).regs = s.regs := rfl
@[simp] theorem raise_pc (f : HardError) : (raise f s).pc = s.pc := rfl
@[simp] theorem raise_imem (f : HardError) : (raise f s).imem = s.imem := rfl
@[simp] theorem raise_progLen (f : HardError) : (raise f s).progLen = s.progLen := rfl
@[simp] theorem raise_status (f : HardError) : (raise f s).status = .faulted := rfl
@[simp] theorem raise_fcause (f : HardError) : (raise f s).fcause = causeOf f := rfl
@[simp] theorem raise_ev (f : HardError) : (raise f s).ev = s.ev := rfl

@[simp] theorem assertReset_regs : (assertReset s).regs = List.replicate (nregs s) 0 := rfl
@[simp] theorem assertReset_pc : (assertReset s).pc = 0 := rfl
@[simp] theorem assertReset_imem : (assertReset s).imem = s.imem := rfl
@[simp] theorem assertReset_progLen : (assertReset s).progLen = s.progLen := rfl
@[simp] theorem assertReset_status : (assertReset s).status = .idle := rfl
@[simp] theorem assertReset_fcause : (assertReset s).fcause = .none := rfl
@[simp] theorem assertReset_ev : (assertReset s).ev = [] := rfl

@[simp] theorem emit_nregs (e : Event) : nregs (emit e s) = nregs s := rfl
@[simp] theorem advance_nregs : nregs (advance s) = nregs s := rfl
@[simp] theorem branchTo_nregs (t : Nat) : nregs (branchTo t s) = nregs s := rfl
@[simp] theorem halt_nregs : nregs (halt s) = nregs s := rfl
@[simp] theorem raise_nregs (f : HardError) : nregs (raise f s) = nregs s := rfl
@[simp] theorem assertReset_nregs : nregs (assertReset s) = nregs s := by simp [nregs]

@[simp] theorem emit_regInRange (e : Event) (i : Word) : regInRange i (emit e s) = regInRange i s := rfl
@[simp] theorem emit_rawReg (e : Event) (i : Word) : rawReg i (emit e s) = rawReg i s := rfl
@[simp] theorem emit_labelLookup (e : Event) (lab : Tag) : labelLookup lab (emit e s) = labelLookup lab s := rfl
@[simp] theorem emit_ifetch (e : Event) (i : PcWord) : ifetch i (emit e s) = ifetch i s := rfl

@[simp] theorem advance_regInRange (i : Word) : regInRange i (advance s) = regInRange i s := rfl
@[simp] theorem advance_rawReg (i : Word) : rawReg i (advance s) = rawReg i s := rfl
@[simp] theorem advance_labelLookup (lab : Tag) : labelLookup lab (advance s) = labelLookup lab s := rfl
@[simp] theorem advance_ifetch (i : PcWord) : ifetch i (advance s) = ifetch i s := rfl

@[simp] theorem branchTo_regInRange (t : Nat) (i : Word) : regInRange i (branchTo t s) = regInRange i s := rfl
@[simp] theorem branchTo_rawReg (t : Nat) (i : Word) : rawReg i (branchTo t s) = rawReg i s := rfl
@[simp] theorem branchTo_labelLookup (t : Nat) (lab : Tag) : labelLookup lab (branchTo t s) = labelLookup lab s := rfl
@[simp] theorem branchTo_ifetch (t : Nat) (i : PcWord) : ifetch i (branchTo t s) = ifetch i s := rfl

@[simp] theorem halt_regInRange (i : Word) : regInRange i (halt s) = regInRange i s := rfl
@[simp] theorem halt_rawReg (i : Word) : rawReg i (halt s) = rawReg i s := rfl
@[simp] theorem halt_labelLookup (lab : Tag) : labelLookup lab (halt s) = labelLookup lab s := rfl
@[simp] theorem halt_ifetch (i : PcWord) : ifetch i (halt s) = ifetch i s := rfl

@[simp] theorem raise_regInRange (f : HardError) (i : Word) : regInRange i (raise f s) = regInRange i s := rfl
@[simp] theorem raise_rawReg (f : HardError) (i : Word) : rawReg i (raise f s) = rawReg i s := rfl
@[simp] theorem raise_labelLookup (f : HardError) (lab : Tag) : labelLookup lab (raise f s) = labelLookup lab s := rfl
@[simp] theorem raise_ifetch (f : HardError) (i : PcWord) : ifetch i (raise f s) = ifetch i s := rfl

@[simp] theorem emit_ownLabel (e : Event) : ownLabel (emit e s) = ownLabel s := rfl
@[simp] theorem halt_ownLabel : ownLabel (halt s) = ownLabel s := rfl
@[simp] theorem raise_ownLabel (f : HardError) : ownLabel (raise f s) = ownLabel s := rfl

end Sys2Proof.Machine
end

