-- ==== Sys2Proof/Laws/Registers.lean ====
section
/-! SUPPORT. What the register file's two ports can do: one lemma for the read, one for the write, and what each leaves alone. -/

namespace Sys2Proof.Machine

/-! ### RegRead -/

theorem regRead_inRange {i : Word} {s : State} (h : regInRange i s = true) : regRead i s = (rawReg i s, s) := by
  simp [regRead, h]

theorem regRead_outOfRange {i : Word} {s : State} (h : regInRange i s = false) :
    regRead i s = (0, emit (.invalidRegister .read s.pc (ownLabel s) i) s) := by
  simp [regRead, h]

/-- Everything a read can do. -/
theorem regRead_cases (i : Word) (s : State) :
    (regInRange i s = true ∧ regRead i s = (rawReg i s, s)) ∨
      (regInRange i s = false ∧ regRead i s = (0, emit (.invalidRegister .read s.pc (ownLabel s) i) s)) := by
  cases h : regInRange i s
  · exact .inr ⟨rfl, regRead_outOfRange h⟩
  · exact .inl ⟨rfl, regRead_inRange h⟩

variable (i : Word) (s : State)

@[simp] theorem regRead_regs : (regRead i s).2.regs = s.regs := by unfold regRead; split <;> rfl
@[simp] theorem regRead_pc : (regRead i s).2.pc = s.pc := by unfold regRead; split <;> rfl
@[simp] theorem regRead_imem : (regRead i s).2.imem = s.imem := by unfold regRead; split <;> rfl
@[simp] theorem regRead_progLen : (regRead i s).2.progLen = s.progLen := by unfold regRead; split <;> rfl
@[simp] theorem regRead_status : (regRead i s).2.status = s.status := by unfold regRead; split <;> rfl
@[simp] theorem regRead_fcause : (regRead i s).2.fcause = s.fcause := by unfold regRead; split <;> rfl
@[simp] theorem regRead_nregs : nregs (regRead i s).2 = nregs s := by simp [nregs]
@[simp] theorem regRead_regInRange (j : Word) : regInRange j (regRead i s).2 = regInRange j s := by simp [regInRange]
@[simp] theorem regRead_rawReg (j : Word) : rawReg j (regRead i s).2 = rawReg j s := by simp [rawReg]
@[simp] theorem regRead_ownLabel : ownLabel (regRead i s).2 = ownLabel s := by simp [ownLabel, ifetch]
@[simp] theorem regRead_labelLookup (t : Tag) : labelLookup t (regRead i s).2 = labelLookup t s := by
  unfold regRead; split <;> rfl

/-- The value of a read. -/
theorem regRead_value : (regRead i s).1 = if regInRange i s = true then rawReg i s else 0 := by
  unfold regRead; split <;> rfl

/-- A read's value does not depend on the reads before it. -/
@[simp] theorem regRead_value_regRead (j : Word) : (regRead j (regRead i s).2).1 = (regRead j s).1 := by
  simp [regRead_value]

/-! ### RegWrite -/

theorem regWrite_inRange {i v : Word} {s : State} (h : regInRange i s = true) :
    regWrite i v s = { s with regs := s.regs.set i.toInt.toNat v } := by
  simp [regWrite, h]

theorem regWrite_outOfRange {i v : Word} {s : State} (h : regInRange i s = false) :
    regWrite i v s = emit (.invalidRegister .write s.pc (ownLabel s) i) s := by
  simp [regWrite, h]

/-- Everything a write can do. -/
theorem regWrite_cases (i v : Word) (s : State) :
    (regInRange i s = true ∧ regWrite i v s = { s with regs := s.regs.set i.toInt.toNat v }) ∨
      (regInRange i s = false ∧ regWrite i v s = emit (.invalidRegister .write s.pc (ownLabel s) i) s) := by
  cases h : regInRange i s
  · exact .inr ⟨rfl, regWrite_outOfRange h⟩
  · exact .inl ⟨rfl, regWrite_inRange h⟩

variable (v : Word)

@[simp] theorem regWrite_pc : (regWrite i v s).pc = s.pc := by unfold regWrite; split <;> rfl
@[simp] theorem regWrite_imem : (regWrite i v s).imem = s.imem := by unfold regWrite; split <;> rfl
@[simp] theorem regWrite_progLen : (regWrite i v s).progLen = s.progLen := by unfold regWrite; split <;> rfl
@[simp] theorem regWrite_status : (regWrite i v s).status = s.status := by unfold regWrite; split <;> rfl
@[simp] theorem regWrite_fcause : (regWrite i v s).fcause = s.fcause := by unfold regWrite; split <;> rfl
@[simp] theorem regWrite_nregs : nregs (regWrite i v s) = nregs s := by unfold regWrite; split <;> simp [nregs]

/-- The raw index of an index in range is below the number of registers. -/
theorem rawIndex_lt {i : Word} {s : State} (h : regInRange i s = true) : i.toInt.toNat < s.regs.length := by
  obtain ⟨h0, h1⟩ : 0 ≤ i.toInt ∧ i.toInt < (s.regs.length : Int) := by simpa [regInRange] using h
  omega

/-- A write followed by a read of the same register, in range. -/
theorem rawReg_regWrite_same {i v : Word} {s : State} (h : regInRange i s = true) :
    rawReg i (regWrite i v s) = v := by
  simp [regWrite_inRange h, rawReg, List.getD, rawIndex_lt h]

/-- A write leaves every other register alone. -/
theorem regs_regWrite_other {i v : Word} {s : State} {k : Nat} (h : k ≠ i.toInt.toNat) :
    (regWrite i v s).regs.getD k 0 = s.regs.getD k 0 := by
  rcases regWrite_cases i v s with ⟨_, e⟩ | ⟨_, e⟩ <;> simp [e, List.getD, Ne.symm h]

end Sys2Proof.Machine
end

