-- ==== Sys2Proof/Laws/Access.lean ====
section
/-! SUPPORT. The two ports of the register file in the terms of claims: one equation each. -/

namespace Sys2Proof.Machine

theorem regInRange_iff {i : Word} {s : State} : regInRange i s = true ↔ inFile i s := by
  simp [regInRange]

theorem readValue_in {i : Word} {s : State} (h : inFile i s) : readValue i s = rawReg i s := if_pos h
theorem readValue_out {i : Word} {s : State} (h : ¬ inFile i s) : readValue i s = 0 := if_neg h
theorem readLog_in {i : Word} {s : State} (h : inFile i s) : readLog i s = [] := if_pos h
theorem readLog_out {i : Word} {s : State} (h : ¬ inFile i s) :
    readLog i s = [.invalidRegister .read s.pc (labelAtPc s) i] := if_neg h
theorem writtenRegs_in {r v : Word} {s : State} (h : inFile r s) :
    writtenRegs r v s = s.regs.set r.toInt.toNat v := if_pos h
theorem writtenRegs_out {r v : Word} {s : State} (h : ¬ inFile r s) : writtenRegs r v s = s.regs := if_neg h
theorem writeLog_in {r : Word} {s : State} (h : inFile r s) : writeLog r s = [] := if_pos h
theorem writeLog_out {r : Word} {s : State} (h : ¬ inFile r s) :
    writeLog r s = [.invalidRegister .write s.pc (labelAtPc s) r] := if_neg h

/-- The read port: the value, and the log it appends. -/
theorem regRead_eq (i : Word) (s : State) : regRead i s = (readValue i s, { s with ev := s.ev ++ readLog i s }) := by
  by_cases h : inFile i s
  · rw [regRead_inRange (regInRange_iff.2 h), readValue_in h, readLog_in h, List.append_nil]
  · rw [regRead_outOfRange (Bool.eq_false_iff.2 (mt regInRange_iff.1 h)), readValue_out h, readLog_out h]
    rfl

/-- The write port: the registers, and the log it appends. -/
theorem regWrite_eq (r v : Word) (s : State) :
    regWrite r v s = { s with regs := writtenRegs r v s, ev := s.ev ++ writeLog r s } := by
  by_cases h : inFile r s
  · rw [regWrite_inRange (regInRange_iff.2 h), writtenRegs_in h, writeLog_in h, List.append_nil]
  · rw [regWrite_outOfRange (Bool.eq_false_iff.2 (mt regInRange_iff.1 h)), writtenRegs_out h, writeLog_out h]
    rfl

@[simp] theorem writtenRegs_length (r v : Word) (s : State) : (writtenRegs r v s).length = s.regs.length := by
  unfold writtenRegs; split <;> simp

/-- Reads see the registers, `pc` and the program only, not the log. -/
@[simp] theorem readValue_ev (i : Word) (s : State) (e : List Event) : readValue i { s with ev := e } = readValue i s := rfl
@[simp] theorem readLog_ev (i : Word) (s : State) (e : List Event) : readLog i { s with ev := e } = readLog i s := rfl
@[simp] theorem writtenRegs_ev (r v : Word) (s : State) (e : List Event) :
    writtenRegs r v { s with ev := e } = writtenRegs r v s := rfl
@[simp] theorem writeLog_ev (r : Word) (s : State) (e : List Event) : writeLog r { s with ev := e } = writeLog r s := rfl

theorem readLog_length (i : Word) (s : State) : (readLog i s).length ≤ 1 := by
  unfold readLog; split <;> simp

theorem writeLog_length (r : Word) (s : State) : (writeLog r s).length ≤ 1 := by
  unfold writeLog; split <;> simp

@[simp] theorem outStream_readLog (i : Word) (s : State) : outStream (readLog i s) = [] := by
  unfold readLog; split <;> rfl

@[simp] theorem outStream_writeLog (r : Word) (s : State) : outStream (writeLog r s) = [] := by
  unfold writeLog; split <;> rfl

@[simp] theorem diagStream_readLog (i : Word) (s : State) : diagStream (readLog i s) = readLog i s := by
  unfold readLog; split <;> rfl

@[simp] theorem diagStream_writeLog (r : Word) (s : State) : diagStream (writeLog r s) = writeLog r s := by
  unfold writeLog; split <;> rfl

@[simp] theorem outStream_append (a b : List Event) : outStream (a ++ b) = outStream a ++ outStream b := by
  simp [outStream]

@[simp] theorem diagStream_append (a b : List Event) : diagStream (a ++ b) = diagStream a ++ diagStream b := by
  simp [diagStream]

/-- Two register sources: the values, and the logs they append, in order. -/
theorem readSources_eq (s1 s2 : Word) (s : State) :
    readSources s1 s2 s =
      { v1 := readValue s1 s, v2 := readValue s2 s, after := { s with ev := s.ev ++ readLog s1 s ++ readLog s2 s } } := by
  simp [readSources, readSource, regRead_eq]

end Sys2Proof.Machine
end

