-- ==== Sys2Proof/Laws/Alu.lean ====
section
/-! SUPPORT. The ALU: wrapping as a balanced remainder, truncating division as the library's. -/

namespace Sys2Proof.Machine

theorem wrap_toInt (n : Int) : (wrap n).toInt = n.bmod (2 ^ 32) := by simp [wrap, BitVec.toInt_ofInt]

/-- A number in `MIN..MAX` is not changed by wrapping. -/
theorem wrap_toInt_of_fits {n : Int} (h1 : minInt ≤ n) (h2 : n ≤ maxInt) : (wrap n).toInt = n := by
  simp only [minInt, maxInt] at h1 h2
  rw [wrap_toInt, Int.bmod_eq_of_le] <;> omega

/-- The formula of R131 is the library's division rounded toward zero. -/
theorem tdiv_eq (a b : Int) : tdiv a b = Int.tdiv a b := by
  rcases Int.natAbs_eq a with ha | ha <;> rcases Int.natAbs_eq b with hb | hb <;>
    rcases Nat.eq_zero_or_pos a.natAbs with za | za <;> rcases Nat.eq_zero_or_pos b.natAbs with zb | zb <;>
    generalize a.natAbs = m at * <;> generalize b.natAbs = n at * <;> subst ha <;> subst hb <;>
    simp_all [tdiv, Int.sign_eq_one_of_pos, Int.neg_tdiv, Int.tdiv_neg, Int.sign_neg]

theorem divisorIsZero_iff (v : Word) : divisorIsZero v = true ↔ v = 0 := by
  simp only [divisorIsZero, decide_eq_true_eq]
  constructor
  · intro h; exact BitVec.eq_of_toInt_eq (by simpa using h)
  · rintro rfl; rfl

end Sys2Proof.Machine
end

