-- ==== Sys2Proof/Laws/Decode.lean ====
section
/-! SUPPORT. The fields of a word built from fields, and the opcode numbers. -/

namespace Sys2Proof

/-! ### A field of a concatenation lies in one of its halves -/

theorem extract_append_high {n m : Nat} (x : BitVec n) (y : BitVec m) (start len : Nat) (h : m ≤ start) :
    (x ++ y).extractLsb' start len = x.extractLsb' (start - m) len := by
  apply BitVec.eq_of_getLsbD_eq
  intro i hi
  have h1 : ¬ start + i < m := by omega
  have h2 : start + i - m = start - m + i := by omega
  simp [BitVec.getLsbD_append, hi, h1, h2]

theorem extract_append_low {n m : Nat} (x : BitVec n) (y : BitVec m) (start len : Nat) (h : start + len ≤ m) :
    (x ++ y).extractLsb' start len = y.extractLsb' start len := by
  apply BitVec.eq_of_getLsbD_eq
  intro i hi
  have h1 : start + i < m := by omega
  simp [BitVec.getLsbD_append, hi, h1]

theorem extract_all {n : Nat} (x : BitVec n) : x.extractLsb' 0 n = x := by
  apply BitVec.eq_of_getLsbD_eq
  intro i hi
  simp [hi]

/-- Two neighbouring fields, put together again. -/
theorem extract_append_extract {n : Nat} (x : BitVec n) (start len len' : Nat) :
    x.extractLsb' (start + len') len ++ x.extractLsb' start len' = x.extractLsb' start (len + len') := by
  apply BitVec.eq_of_getLsbD_eq
  intro i hi
  rw [BitVec.getLsbD_append]
  by_cases h : i < len'
  · simp [h, hi]
  · have h1 : i - len' < len := by omega
    have h2 : start + len' + (i - len') = start + i := by omega
    simp [h, hi, h1, h2]

/-! ### The fields of a word -/

variable (lbl : Tag) (opc a b c : Word)

@[simp] theorem lblField_mkWord : lblField (mkWord lbl opc a b c) = lbl :=
  (extract_append_high (lbl ++ opc ++ a ++ b) c 128 64 (by omega)).trans <|
  (extract_append_high (lbl ++ opc ++ a) b 96 64 (by omega)).trans <|
  (extract_append_high (lbl ++ opc) a 64 64 (by omega)).trans <|
  (extract_append_high lbl opc 32 64 (by omega)).trans (extract_all lbl)

@[simp] theorem opcField_mkWord : opcField (mkWord lbl opc a b c) = opc :=
  (extract_append_high (lbl ++ opc ++ a ++ b) c 96 32 (by omega)).trans <|
  (extract_append_high (lbl ++ opc ++ a) b 64 32 (by omega)).trans <|
  (extract_append_high (lbl ++ opc) a 32 32 (by omega)).trans <|
  (extract_append_low lbl opc 0 32 (by omega)).trans (extract_all opc)

@[simp] theorem aField_mkWord : aField (mkWord lbl opc a b c) = a :=
  (extract_append_high (lbl ++ opc ++ a ++ b) c 64 32 (by omega)).trans <|
  (extract_append_high (lbl ++ opc ++ a) b 32 32 (by omega)).trans <|
  (extract_append_low (lbl ++ opc) a 0 32 (by omega)).trans (extract_all a)

@[simp] theorem bField_mkWord : bField (mkWord lbl opc a b c) = b :=
  (extract_append_high (lbl ++ opc ++ a ++ b) c 32 32 (by omega)).trans <|
  (extract_append_low (lbl ++ opc ++ a) b 0 32 (by omega)).trans (extract_all b)

@[simp] theorem cField_mkWord : cField (mkWord lbl opc a b c) = c :=
  (extract_append_low (lbl ++ opc ++ a ++ b) c 0 32 (by omega)).trans (extract_all c)

/-- A word is built from its own fields. -/
theorem mkWord_fields (iw : IWord) :
    mkWord (lblField iw) (opcField iw) (aField iw) (bField iw) (cField iw) = iw := by
  have h1 : lblField iw ++ opcField iw = iw.extractLsb' 96 96 := extract_append_extract iw 96 64 32
  have h2 : iw.extractLsb' 96 96 ++ aField iw = iw.extractLsb' 64 128 := extract_append_extract iw 64 96 32
  have h3 : iw.extractLsb' 64 128 ++ bField iw = iw.extractLsb' 32 160 := extract_append_extract iw 32 128 32
  have h4 : iw.extractLsb' 32 160 ++ cField iw = iw.extractLsb' 0 192 := extract_append_extract iw 0 160 32
  have h5 : mkWord (lblField iw) (opcField iw) (aField iw) (bField iw) (cField iw)
      = lblField iw ++ opcField iw ++ aField iw ++ bField iw ++ cField iw := rfl
  rw [h5, h1, h2, h3, h4]
  exact extract_all iw

/-- The two halves of a label tag. -/
@[simp] theorem tagHigh_append_tagLow (t : Tag) : tagHigh t ++ tagLow t = t :=
  (extract_append_extract t 0 32 32).trans (extract_all t)

@[simp] theorem tagHigh_append (x y : Word) : tagHigh (x ++ y) = x :=
  (extract_append_high x y 32 32 (by omega)).trans (extract_all x)

@[simp] theorem tagLow_append (x y : Word) : tagLow (x ++ y) = y :=
  (extract_append_low x y 0 32 (by omega)).trans (extract_all y)

/-! ### Opcode numbers -/

@[simp] theorem opcodeOfNumber_opcodeNumber (o : Opcode) : opcodeOfNumber (opcodeNumber o) = some o := by
  cases o <;> decide

theorem opcodeNumber_of_opcodeOfNumber {n : Word} {o : Opcode} (h : opcodeOfNumber n = some o) :
    n = opcodeNumber o := by
  unfold opcodeOfNumber at h
  repeat' split at h
  all_goals first | cases h; assumption | cases h

theorem opcodeOfNumber_eq_none {n : Word} : opcodeOfNumber n = none ↔ n = 0 ∨ 8 ≤ n.toNat := by
  constructor
  · intro h
    by_contra hn
    simp only [not_or, Nat.not_le] at hn
    obtain ⟨h0, h8⟩ := hn
    unfold opcodeOfNumber at h
    repeat' split at h
    all_goals first
      | contradiction
      | bv_omega
  · intro h
    cases ho : opcodeOfNumber n with
    | none => rfl
    | some o =>
      rw [opcodeNumber_of_opcodeOfNumber ho] at h
      cases o <;> simp [opcodeNumber] at h

end Sys2Proof
end

