-- ==== Sys2Proof/Laws/Lookup.lean ====
section
/-! SUPPORT. What the label lookup answers: a hit is the lowest matching index below PROGLEN, a miss means there is none. -/

namespace Sys2Proof.Machine

theorem labelLookup_eq_some {t : Tag} {s : State} {k : Nat} :
    labelLookup t s = some k ↔
      labelAt k s = t ∧ k < s.progLen.toNat ∧ ∀ j < k, labelAt j s ≠ t := by
  simp [labelLookup]

theorem labelLookup_eq_none {t : Tag} {s : State} :
    labelLookup t s = none ↔ ∀ k < s.progLen.toNat, labelAt k s ≠ t := by
  simp [labelLookup]

theorem labelLookup_lt {t : Tag} {s : State} {k : Nat} (h : labelLookup t s = some k) : k < s.progLen.toNat :=
  (labelLookup_eq_some.1 h).2.1

/-- A hit fits the program counter: the branch target is the index itself. -/
theorem labelLookup_toNat {t : Tag} {s : State} {k : Nat} (h : labelLookup t s = some k) :
    (BitVec.ofNat 32 k).toNat = k := by
  have := labelLookup_lt h
  have := s.progLen.isLt
  simp only [BitVec.toNat_ofNat]
  omega

end Sys2Proof.Machine
end

