-- ==== Sys2Proof/Laws/Memory.lean ====
section
/-! SUPPORT. The laws of the instruction memory: read after write, and every operation keeps the canonical form. -/

namespace Sys2Proof.Machine

/-! ### Read after write -/

theorem cellGet_cellSet (cells : List (Nat × IWord)) (i j : Nat) (v : IWord) :
    cellGet (cellSet cells i v) j = if j = i then some v else cellGet cells j := by
  induction cells with
  | nil => simp [cellSet, cellGet]
  | cons c rest ih =>
    obtain ⟨a, w⟩ := c
    by_cases hlt : i < a
    · simp [cellSet, cellGet, hlt]
    · by_cases heq : i = a
      · subst heq
        by_cases hj : j = i <;> simp [cellSet, cellGet, hj]
      · by_cases hj : j = a
        · have hji : j ≠ i := fun h => heq (h.symm.trans hj)
          simp [cellSet, cellGet, hlt, heq, hj, Ne.symm heq]
        · simp [cellSet, cellGet, hlt, heq, hj, ih]

@[simp] theorem Memory.write_depth (m : Memory) (i : Nat) (v : IWord) : (m.write i v).depth = m.depth := rfl

theorem Memory.read_write (m : Memory) (i j : Nat) (v : IWord) :
    (m.write i v).read j = if j = i then v else m.read j := by
  by_cases h : j = i <;> simp [Memory.read, Memory.write, cellGet_cellSet, h]

@[simp] theorem Memory.read_write_same (m : Memory) (i : Nat) (v : IWord) : (m.write i v).read i = v := by
  simp [Memory.read_write]

theorem Memory.read_write_other (m : Memory) {i j : Nat} (v : IWord) (h : j ≠ i) :
    (m.write i v).read j = m.read j := by
  simp [Memory.read_write, h]

/-! ### The canonical form -/

theorem risingAbove_cellSet {lo : Nat} {cells : List (Nat × IWord)} {i : Nat} (v : IWord) (hi : lo < i)
    (h : risingAbove lo cells = true) : risingAbove lo (cellSet cells i v) = true := by
  induction cells generalizing lo with
  | nil => simp [cellSet, risingAbove, hi]
  | cons c rest ih =>
    obtain ⟨a, w⟩ := c
    simp only [risingAbove, Bool.and_eq_true, decide_eq_true_eq] at h
    by_cases hlt : i < a
    · simp [cellSet, risingAbove, hlt, hi, h.2]
    · by_cases heq : i = a
      · simp [cellSet, risingAbove, heq, h.1, h.2]
      · have ha : a < i := by omega
        simp [cellSet, risingAbove, hlt, heq, h.1, ih ha h.2]

theorem rising_cellSet {cells : List (Nat × IWord)} (i : Nat) (v : IWord) (h : rising cells = true) :
    rising (cellSet cells i v) = true := by
  cases cells with
  | nil => simp [cellSet, rising, risingAbove]
  | cons c rest =>
    obtain ⟨a, w⟩ := c
    simp only [rising] at h
    by_cases hlt : i < a
    · simp [cellSet, rising, risingAbove, hlt, h]
    · by_cases heq : i = a
      · simp [cellSet, rising, heq, h]
      · have ha : a < i := by omega
        simp [cellSet, rising, hlt, heq, risingAbove_cellSet v ha h]

theorem all_cellSet {p : Nat × IWord → Bool} {cells : List (Nat × IWord)} {i : Nat} {v : IWord} (hp : p (i, v) = true)
    (h : cells.all p = true) : (cellSet cells i v).all p = true := by
  induction cells with
  | nil => simp [cellSet, hp]
  | cons c rest ih =>
    obtain ⟨a, w⟩ := c
    simp only [List.all_cons, Bool.and_eq_true] at h
    by_cases hlt : i < a
    · simpa [cellSet, hlt, hp, h.1] using h.2
    · by_cases heq : i = a
      · subst heq
        simpa [cellSet, hp] using h.2
      · simp [cellSet, hlt, heq, h.1, ih h.2]

theorem Memory.wf_write {m : Memory} {i : Nat} (v : IWord) (hi : i < m.depth) (h : m.wf = true) :
    (m.write i v).wf = true := by
  simp only [Memory.wf, Memory.write, Bool.and_eq_true] at h ⊢
  exact ⟨rising_cellSet i v h.1, all_cellSet (decide_eq_true hi) h.2⟩

/-! ### The operations that touch the memory -/

theorem loadPort_imem_wf (sel : Bool) (addr : BitVec 32) (data : IWord) {s : State} (h : s.imem.wf = true) :
    (loadPort sel addr data s).imem.wf = true := by
  unfold loadPort
  split
  · split
    · exact h
    · split
      · exact Memory.wf_write _ ‹_› h
      · exact h
  · exact h

theorem placeWord_imem_wf (iw : IWord) {s : State} (hpc : s.pc.toNat < s.imem.depth) (hd : s.imem.depth < 2 ^ 32)
    (h : s.imem.wf = true) : (placeWord iw s).imem.wf = true := by
  have hlt : s.pc.toNat + 1 < 2 ^ 32 := by omega
  simp only [placeWord, hlt, if_true]
  exact Memory.wf_write _ hpc h

end Sys2Proof.Machine
end

