-- ==== Sys2Proof/Laws/PerInstr.lean ====
section
/-! SUPPORT. Statements for all instructions, one lemma per constructor: the opcode number and the label of an encoding. -/

namespace Sys2Proof.Laws

/-- The `OPC` field of an instruction's word is its opcode's number (spec/30_encoding.md R72, R84). -/
def OpcodeField.Statement (i : Instr) : Prop := opcField (encode i) = opcodeNumber (opcodeOf i)

theorem OpcodeField.add (l : Tag) (r s1 s2 : Word) : OpcodeField.Statement (.add l r s1 s2) := opcField_mkWord ..
theorem OpcodeField.sub (l : Tag) (r s1 s2 : Word) : OpcodeField.Statement (.sub l r s1 s2) := opcField_mkWord ..
theorem OpcodeField.mul (l : Tag) (r s1 s2 : Word) : OpcodeField.Statement (.mul l r s1 s2) := opcField_mkWord ..
theorem OpcodeField.div (l : Tag) (r s1 s2 : Word) : OpcodeField.Statement (.div l r s1 s2) := opcField_mkWord ..
theorem OpcodeField.out (l : Tag) (s1 : Word) : OpcodeField.Statement (.out l s1) := opcField_mkWord ..
theorem OpcodeField.lin (l : Tag) (r x : Word) : OpcodeField.Statement (.lin l r x) := opcField_mkWord ..
theorem OpcodeField.bnz (l : Tag) (s1 : Word) (t : Tag) : OpcodeField.Statement (.bnz l s1 t) := opcField_mkWord ..

/-- The `LBL` field of an instruction's word is its own label tag (R71, R84). -/
def LabelField.Statement (i : Instr) : Prop := lblField (encode i) = i.lbl

theorem LabelField.add (l : Tag) (r s1 s2 : Word) : LabelField.Statement (.add l r s1 s2) := lblField_mkWord ..
theorem LabelField.sub (l : Tag) (r s1 s2 : Word) : LabelField.Statement (.sub l r s1 s2) := lblField_mkWord ..
theorem LabelField.mul (l : Tag) (r s1 s2 : Word) : LabelField.Statement (.mul l r s1 s2) := lblField_mkWord ..
theorem LabelField.div (l : Tag) (r s1 s2 : Word) : LabelField.Statement (.div l r s1 s2) := lblField_mkWord ..
theorem LabelField.out (l : Tag) (s1 : Word) : LabelField.Statement (.out l s1) := lblField_mkWord ..
theorem LabelField.lin (l : Tag) (r x : Word) : LabelField.Statement (.lin l r x) := lblField_mkWord ..
theorem LabelField.bnz (l : Tag) (s1 : Word) (t : Tag) : LabelField.Statement (.bnz l s1 t) := lblField_mkWord ..

end Sys2Proof.Laws
end

