-- ==== Sys2Proof/Laws/Step.lean ====
section
/-! SUPPORT. What the shared operations and a step can do, said once: one inversion lemma each. -/

namespace Sys2Proof.Machine

/-- Everything an arithmetic instruction can do. -/
theorem aluInstr_cases (op : AluOp) (r s1 s2 : Word) (s : State) :
    (∃ v, alu op (readValue s1 s) (readValue s2 s) = .result v ∧
      aluInstr op r s1 s2 s = advance (regWrite r v { s with ev := s.ev ++ readLog s1 s ++ readLog s2 s })) ∨
    (alu op (readValue s1 s) (readValue s2 s) = .divByZero ∧
      aluInstr op r s1 s2 s = raise .divisionByZero { s with ev := s.ev ++ readLog s1 s ++ readLog s2 s }) := by
  cases h : alu op (readValue s1 s) (readValue s2 s) with
  | result v => exact .inl ⟨v, rfl, by simp [aluInstr, readSources_eq, h, writeDest]⟩
  | divByZero => exact .inr ⟨rfl, by simp [aluInstr, readSources_eq, h]⟩

/-- When the ALU signals `div_by_zero`. -/
theorem alu_divByZero_iff (op : AluOp) (a b : Word) : alu op a b = .divByZero ↔ op = .div ∧ divisorIsZero b = true := by
  cases op <;> simp [alu]

/-- Everything `lin` can do. -/
theorem execLin_eq (r x : Word) (s : State) : execLin r x s = .next (advance (regWrite r x s)) := rfl

/-- Everything `out` can do. -/
theorem execOut_eq (s1 : Word) (s : State) :
    execOut s1 s = .next (advance (emit (.out (readValue s1 s)) { s with ev := s.ev ++ readLog s1 s })) := by
  simp [execOut, readSource, regRead_eq]

/-- Everything `bnz` can do. -/
theorem execBnz_cases (s1 : Word) (target : Tag) (s : State) :
    (isNonZero (readValue s1 s) = false ∧
      execBnz s1 target s = .next (advance { s with ev := s.ev ++ readLog s1 s })) ∨
    (isNonZero (readValue s1 s) = true ∧ labelLookup target s = none ∧
      execBnz s1 target s = .next (advance
        { s with ev := s.ev ++ readLog s1 s ++ [.invalidLabel s.pc (labelAtPc s) target] })) ∨
    (∃ k, isNonZero (readValue s1 s) = true ∧ labelLookup target s = some k ∧
      execBnz s1 target s = .next (branchTo k { s with ev := s.ev ++ readLog s1 s })) := by
  have hl : labelLookup target { s with ev := s.ev ++ readLog s1 s } = labelLookup target s := rfl
  cases hz : isNonZero (readValue s1 s) with
  | false => exact .inl ⟨rfl, by simp [execBnz, readSource, regRead_eq, resolveBranch, hz]⟩
  | true =>
    cases hk : labelLookup target s with
    | none =>
      refine .inr (.inl ⟨rfl, rfl, ?_⟩)
      simp [execBnz, readSource, regRead_eq, resolveBranch, hz, hl, hk, emit, ownLabel, labelAtPc, ifetch]
    | some k =>
      exact .inr (.inr ⟨k, rfl, rfl, by simp [execBnz, readSource, regRead_eq, resolveBranch, hz, hl, hk]⟩)

/-- Everything a step can do. -/
theorem step_cases {s t : State} (h : step s = .next t) :
    (s.status ≠ .running ∧ t = s) ∨
    (s.status = .running ∧ s.progLen.toNat ≤ s.pc.toNat ∧ t = halt s) ∨
    (s.status = .running ∧ s.pc.toNat < s.progLen.toNat ∧ (∃ why, decode (ifetch s.pc s) = .illegal why) ∧
      t = raise .illegalInstruction s) ∨
    (s.status = .running ∧ s.pc.toNat < s.progLen.toNat ∧
      ∃ i, decode (ifetch s.pc s) = .instr i ∧ exec i s = .next t) := by
  unfold step fetch at h
  by_cases hr : s.status = .running
  · by_cases hp : s.pc.toNat < s.progLen.toNat
    · cases hd : decode (ifetch s.pc s) with
      | instr i => exact .inr (.inr (.inr ⟨hr, hp, i, rfl, by simpa [hr, hp, hd] using h⟩))
      | illegal why => exact .inr (.inr (.inl ⟨hr, hp, ⟨why, rfl⟩, by simpa [hr, hp, hd, eq_comm] using h⟩))
    · exact .inr (.inl ⟨hr, by omega, by simpa [hr, hp, eq_comm] using h⟩)
  · exact .inl ⟨hr, by simpa [hr, eq_comm] using h⟩

end Sys2Proof.Machine
end

