-- ==== Sys2Proof/Laws/Ports.lean ====
section
/-! SUPPORT. What the host's ports and a clock cycle can do, said once: one inversion lemma each. -/

namespace Sys2Proof.Machine

/-- Everything a load write can do: nothing, a PROGLEN write, or one entry below IMEM_DEPTH. -/
theorem loadPort_cases (sel : Bool) (addr : BitVec 32) (data : IWord) (s : State) :
    (s.status ≠ .idle ∧ loadPort sel addr data s = s) ∨
    (s.status = .idle ∧ sel = true ∧ loadPort sel addr data s = { s with progLen := data.extractLsb' 0 32 }) ∨
    (s.status = .idle ∧ sel = false ∧ addr.toNat < s.imem.depth ∧
      loadPort sel addr data s = { s with imem := s.imem.write addr.toNat data }) ∨
    (s.status = .idle ∧ sel = false ∧ s.imem.depth ≤ addr.toNat ∧ loadPort sel addr data s = s) := by
  unfold loadPort
  by_cases hi : s.status = .idle
  · cases sel with
    | true => simp [hi]
    | false =>
      by_cases ha : addr.toNat < s.imem.depth
      · simp [hi, ha]
      · simp [hi, ha, Nat.le_of_not_lt ha]
  · simp [hi]

/-- Everything a start request can do. -/
theorem startPort_cases (s : State) :
    (s.status = .idle ∧ s.progLen.toNat ≤ s.imem.depth ∧ startPort s = { s with status := .running }) ∨
    (s.status = .idle ∧ s.imem.depth < s.progLen.toNat ∧ startPort s = s) ∨
    (s.status ≠ .idle ∧ startPort s = s) := by
  unfold startPort
  by_cases hi : s.status = .idle
  · by_cases hl : s.progLen.toNat ≤ s.imem.depth
    · simp [hi, hl]
    · simp [hi, hl, Nat.lt_of_not_le hl]
  · simp [hi]

variable (sel : Bool) (addr : BitVec 32) (data : IWord) (s : State)

@[simp] theorem loadPort_regs : (loadPort sel addr data s).regs = s.regs := by
  rcases loadPort_cases sel addr data s with ⟨_, e⟩ | ⟨_, _, e⟩ | ⟨_, _, _, e⟩ | ⟨_, _, _, e⟩ <;> rw [e]
@[simp] theorem loadPort_pc : (loadPort sel addr data s).pc = s.pc := by
  rcases loadPort_cases sel addr data s with ⟨_, e⟩ | ⟨_, _, e⟩ | ⟨_, _, _, e⟩ | ⟨_, _, _, e⟩ <;> rw [e]
@[simp] theorem loadPort_status : (loadPort sel addr data s).status = s.status := by
  rcases loadPort_cases sel addr data s with ⟨_, e⟩ | ⟨_, _, e⟩ | ⟨_, _, _, e⟩ | ⟨_, _, _, e⟩ <;> rw [e]
@[simp] theorem loadPort_fcause : (loadPort sel addr data s).fcause = s.fcause := by
  rcases loadPort_cases sel addr data s with ⟨_, e⟩ | ⟨_, _, e⟩ | ⟨_, _, _, e⟩ | ⟨_, _, _, e⟩ <;> rw [e]
@[simp] theorem loadPort_ev : (loadPort sel addr data s).ev = s.ev := by
  rcases loadPort_cases sel addr data s with ⟨_, e⟩ | ⟨_, _, e⟩ | ⟨_, _, _, e⟩ | ⟨_, _, _, e⟩ <;> rw [e]
@[simp] theorem loadPort_depth : (loadPort sel addr data s).imem.depth = s.imem.depth := by
  rcases loadPort_cases sel addr data s with ⟨_, e⟩ | ⟨_, _, e⟩ | ⟨_, _, _, e⟩ | ⟨_, _, _, e⟩ <;> rw [e]
  rfl

/-- Everything a clock cycle can do: a reset, a step, or the requests of the host. -/
theorem cycle_cases {p : PortsIn} {s t : State} (h : cycle p s = .next t) :
    (p.rst = true ∧ t = assertReset s) ∨
    (p.rst = false ∧ s.status = .running ∧ step s = .next t) ∨
    (p.rst = false ∧ s.status ≠ .running ∧ t = hostRequests p s) := by
  unfold cycle at h
  cases hr : p.rst with
  | true => exact .inl ⟨rfl, by simpa [hr, eq_comm] using h⟩
  | false =>
    by_cases hs : s.status = .running
    · exact .inr (.inl ⟨rfl, hs, by simpa [hr, hs] using h⟩)
    · exact .inr (.inr ⟨rfl, hs, by simpa [hr, hs, eq_comm] using h⟩)

end Sys2Proof.Machine
end

