-- ==== Sys2Proof/Tests/Slice0.lean ====
section
/-! SUPPORT. Tests on the vectors of spec/95_test_vectors.md (named in each comment), and a witness for the hypotheses of each
statement of Certificates/Slice0/Obligations.lean that has some. -/

namespace Sys2Proof.Tests

open Sys2Proof Sys2Proof.Machine

/-! ### Helpers -/

/-- 64 registers, 0 but for the given ones. -/
def regsWith (vals : List (Nat × Word)) : List Word := vals.foldl (fun rs c => rs.set c.1 c.2) (List.replicate 64 0)

/-- An engine running at `pc` over a program. -/
def running (vals : List (Nat × Word)) (pc : PcWord) (words : List IWord) : State :=
  { State.reset with
    regs := regsWith vals
    pc := pc
    imem := { depth := 65536, cells := words.zipIdx.map fun c => (c.2, c.1) }
    progLen := BitVec.ofNat 32 words.length
    status := .running }

/-- The next state of one step, or the state itself (no step stops). -/
def after (s : State) : State :=
  match step s with
  | .next t => t
  | .fault _ => s
  | .refused _ => s

/-- One step over a program of one word with label "a", from index 0. -/
def one (vals : List (Nat × Word)) (opc a b c : Word) : State :=
  after (running vals 0 [mkWord 0x6100000000000000 opc a b c])

/-- Register `k` of a state. -/
def reg (k : Nat) (s : State) : Int := (s.regs.getD k 0).toInt

/-- The label tag "a". -/
def tagA : Tag := 0x6100000000000000

/-- The tag of the name `b`. -/
def tagB : Tag := 0x6200000000000000

/-- The program P1 of the spec (factorial of 6). -/
def factorial : List IWord :=
  [0x663000000000000000000006000000140000000600000000, 0x663100000000000000000006000000150000000100000000,
   0x663200000000000000000006000000160000000100000000, 0x663300000000000000000003000000150000001500000014,
   0x663400000000000000000002000000140000001400000016, 0x663500000000000000000007000000146633000000000000,
   0x663600000000000000000005000000150000000000000000]

/-! ### Decode and encode: words written out from 30_encoding R71 to R73, R79 (E1 to E15) -/

theorem test_decode_lin :
    decode 0x62000000000000000000000600000002FFFFFFFF00000000 = .instr (.lin 0x6200000000000000 2 (-1)) := by decide
theorem test_decode_mul :
    decode 0x663300000000000000000003000000150000001500000014 = .instr (.mul 0x6633000000000000 21 21 20) := by decide
theorem test_decode_bnz :
    decode 0x733400000000000000000007000000016E6F776865726500
      = .instr (.bnz 0x7334000000000000 1 0x6E6F776865726500) := by decide
theorem test_decode_out :
    decode 0x663600000000000000000005000000150000000000000000 = .instr (.out 0x6636000000000000 21) := by decide
theorem test_decode_add :
    decode 0x000000000000000000000001000000010000000200000003 = .instr (.add 0 1 2 3) := by decide
theorem test_decode_sub :
    decode 0x663400000000000000000002000000140000001400000016 = .instr (.sub 0x6634000000000000 20 20 22) := by decide
theorem test_decode_div :
    decode 0x610000000000000000000004000000460000000100000048 = .instr (.div 0x6100000000000000 70 1 72) := by decide
theorem test_decode_illegal_zero : decode 0 = .illegal .opcodeZero := by decide
theorem test_decode_illegal_eight :
    decode 0x610000000000000000000008000000010000000200000003 = .illegal .opcodeReserved := by decide
theorem test_decode_illegal_out :
    decode 0x610000000000000000000005000000010000000100000000 = .illegal .outOperandNotZero := by decide
theorem test_decode_illegal_lin :
    decode 0x610000000000000000000006000000010000000500000001 = .illegal .linOperandNotZero := by decide
theorem test_encode_mul :
    encode (.mul 0x6633000000000000 21 21 20) = 0x663300000000000000000003000000150000001500000014 := by decide
theorem test_encode_bnz :
    encode (.bnz 0x6635000000000000 20 0x6633000000000000) = 0x663500000000000000000007000000146633000000000000 := by
  decide
theorem test_serialised_bytes :
    (toBytes 0x663300000000000000000003000000150000001500000014).take 12 = [0x66, 0x33, 0, 0, 0, 0, 0, 0, 0, 0, 0, 3]
      ∧ ofBytes (toBytes 0x663300000000000000000003000000150000001500000014)
        = some 0x663300000000000000000003000000150000001500000014 := by decide
theorem test_serialised_words :
    toWords 0x663300000000000000000003000000150000001500000014 = [0x66330000, 0, 3, 21, 21, 20] := by decide

/-! ### Well-formedness: a term each check refuses (R112 (3), (5)) -/

theorem test_wellFormed_accepts : (Instr.bnz 0x6635000000000000 20 0x6633000000000000).wellFormed = true := by decide
theorem test_wellFormed_refuses_zero_label : (Instr.add 0 1 2 3).wellFormed = false := by decide
theorem test_wellFormed_refuses_gap : (Instr.lin 0x6100620000000000 1 2).wellFormed = false := by decide
theorem test_wellFormed_refuses_target : (Instr.bnz 0x6100000000000000 1 0x0061000000000000).wellFormed = false := by decide
theorem test_wellFormed_per_constructor :
    (Instr.sub 0 1 2 3).wellFormed = false ∧ (Instr.mul 0 1 2 3).wellFormed = false ∧
    (Instr.div 0 1 2 3).wellFormed = false ∧ (Instr.out 0 1).wellFormed = false := by decide
theorem test_image_wellFormed : imageWellFormed 65536 { words := factorial } = true := by decide
theorem test_image_refuses_duplicate_label :
    imageWellFormed 65536 { words := [encode (.lin tagA 1 1), encode (.out tagA 1)] } = false := by decide
theorem test_image_refuses_illegal_word : imageWellFormed 65536 { words := [0] } = false := by decide
theorem test_image_refuses_too_long : imageWellFormed 6 { words := factorial } = false := by decide

/-! ### Register file (G1 to G11) -/

theorem test_regRead_last : (regRead 63 (running [(63, -9)] 0 [])).1 = -9 := by decide
theorem test_regRead_negative_is_zero : (regRead 0x80000000 (running [(0, 5)] 0 [encode (.out tagA 0)])).1 = 0 := by decide
theorem test_regWrite_last : reg 63 (regWrite 63 7 (running [] 0 [])) = 7 := by decide
theorem test_regWrite_out_of_range :
    (regWrite 64 7 (running [(1, 5)] 0 [encode (.out tagA 0)])).ev = [.invalidRegister .write 0 tagA 64]
      ∧ (regWrite 64 7 (running [(1, 5)] 0 [encode (.out tagA 0)])).regs = regsWith [(1, 5)] := by decide

/-! ### `lin` (L1 to L7) -/

theorem test_lin_min : reg 1 (one [(1, 99)] 6 1 0x80000000 0) = -2147483648 := by decide
theorem test_lin_out_of_range :
    let t := one [] 6 (-3) 8 0
    t.ev = [.invalidRegister .write 0 tagA (-3)] ∧ t.pc = 1 ∧ t.regs = regsWith [] := by decide

/-! ### `add`, `sub`, `mul` (A1 to A30) -/

theorem test_add_wraps : reg 1 (one [(2, 2147483647), (3, 1)] 1 1 2 3) = -2147483648 := by decide
theorem test_add_three_events :
    (one [] 1 70 71 72).ev =
      [.invalidRegister .read 0 tagA 71, .invalidRegister .read 0 tagA 72, .invalidRegister .write 0 tagA 70] := by decide
theorem test_sub_operand_order : reg 1 (one [(2, 3), (3, 4)] 2 1 2 3) = -1 := by decide
theorem test_sub_source_is_destination : reg 5 (one [(5, 77)] 2 5 5 5) = 0 := by decide
theorem test_mul_low_half : reg 1 (one [(2, 123456789), (3, 987654321)] 3 1 2 3) = -67153019 := by decide
theorem test_mul_squares : reg 2 (one [(2, -3)] 3 2 2 2) = 9 := by decide

/-! ### `div` (V1 to V26) -/

theorem test_div_toward_zero : reg 1 (one [(2, -17), (3, 5)] 4 1 2 3) = -3 := by decide
theorem test_div_fault_after_read_event :
    let t := one [(1, 9)] 4 70 1 72
    t.status = .faulted ∧ t.fcause = .divisionByZero ∧ t.pc = 0 ∧ t.ev = [.invalidRegister .read 0 tagA 72] := by decide
theorem test_alu_div_overflow : alu .div 0x80000000 (-1) = .result 0x80000000 := by decide
theorem test_alu_div_signs :
    alu .div 7 (-2) = .result (-3) ∧ alu .div (-7) (-2) = .result 3 ∧ alu .div 2147483647 0x80000000 = .result 0 := by decide

/-! ### `out` (O1 to O6) -/

theorem test_out_emits : (one [(1, -17)] 5 1 0 0).ev = [.out (-17)] := by decide
theorem test_out_out_of_range : (one [] 5 65 0 0).ev = [.invalidRegister .read 0 tagA 65, .out 0] := by decide

/-! ### `bnz` (B1 to B12) -/

theorem test_bnz_taken_on_one : (after (running [(20, 1)] 5 factorial)).pc = 3 := by decide
theorem test_bnz_falls_through_on_zero : (after (running [(20, 0)] 5 factorial)).pc = 6 := by decide
theorem test_bnz_unknown_label :
    let t := one [(20, 5)] 7 20 0x7A7A0000 0
    t.pc = 1 ∧ t.ev = [.invalidLabel 0 tagA 0x7A7A000000000000] := by decide
theorem test_bnz_to_itself :
    step (running [(20, 5)] 0 [encode (.bnz tagA 20 tagA)]) = .next (running [(20, 5)] 0 [encode (.bnz tagA 20 tagA)]) := by
  rfl
theorem test_lookup_takes_the_lowest_index :
    labelLookup tagA (running [] 0 [encode (.out 0 1), encode (.out tagA 1), encode (.out tagA 2)]) = some 1 := by decide

/-! ### Step and run control (T1 to T10) -/

theorem test_step_halts : (after (running [] 7 factorial)).status = .halted ∧ (after (running [] 7 factorial)).pc = 7 := by decide
theorem test_step_illegal :
    let t := one [] 5 1 1 0
    t.status = .faulted ∧ t.fcause = .illegalInstruction ∧ t.pc = 0 ∧ t.ev = [] := by decide
theorem test_step_ignored_when_halted :
    after { running [] 7 factorial with status := .halted } = { running [] 7 factorial with status := .halted } := by decide
theorem test_placed_word_runs :
    after (State.reset.withFetchWord 192 0x000000000000000000000006000000010000000700000000)
      = { State.reset.withFetchWord 192 0x000000000000000000000006000000010000000700000000 with
          regs := regsWith [(1, 7)], pc := 1 } := by decide
theorem test_table_word_decodes : decodeTableWord 192 0x000000000000000000000007000000000000000000000000 = some (.bnz 0 0 0) := by
  decide

/-! ### The host interface (T5 to T8, R226 to R231) -/

/-- The next state of one clock cycle. -/
def afterCycle (p : PortsIn) (s : State) : State :=
  match cycle p s with
  | .next t => t
  | .fault _ => s
  | .refused _ => s

theorem test_reset_while_running :
    let t := afterCycle { quietPorts with rst := true, start := true } (running [(1, 5)] 3 factorial)
    t.status = .idle ∧ t.pc = 0 ∧ t.regs = regsWith [] ∧ t.progLen = 7 ∧ t.imem = (running [] 3 factorial).imem := by decide
theorem test_load_ignored_while_running :
    (afterCycle { quietPorts with ldWe := true, ldData := 5 } (running [] 0 factorial)).imem = (running [] 0 factorial).imem := by
  decide
theorem test_start_refused :
    afterCycle { quietPorts with start := true } { State.reset with progLen := 65537 }
      = { State.reset with progLen := 65537 } := by decide
theorem test_start_ignored_when_faulted :
    afterCycle { quietPorts with start := true } { State.reset with status := .faulted, fcause := .divisionByZero }
      = { State.reset with status := .faulted, fcause := .divisionByZero } := by decide
theorem test_load_and_start_in_one_cycle :
    let t := afterCycle { quietPorts with start := true, ldWe := true, ldSel := true, ldData := 3 } State.reset
    t.status = .running ∧ t.progLen = 3 := by decide
theorem test_output_port : (outputs quietPorts (running [(21, 720)] 6 factorial)).outData = some 720 := by decide
theorem test_diagnostic_lanes :
    (outputs quietPorts (running [] 0 [encode (.div tagA 70 1 72)])).diagLanes
      = [(1 : BitVec 2) ++ (0 : BitVec 32) ++ tagA ++ (72 : BitVec 64)] := by decide
theorem test_boot : loadedImage (boot { words := factorial } State.reset) = { words := factorial } := by decide
theorem test_debug_read : debugRead 64 State.reset = 0 ∧ debugRead 1 (running [(1, 5)] 0 []) = 5 := by decide

/-! ### The assembler (X1 to X16, L8 to L10), text in bytes -/

/-- The bytes of a list of ASCII characters. -/
def ascii (cs : List Char) : List Byte := cs.map fun c => BitVec.ofNat 8 c.toNat

theorem test_assemble_line :
    assemble 65536 (some [ascii [' ', 'f', '3', ' ', '\t', 'm', 'u', 'l', ' ', ' ', '2', '1', ' ', '2', '1', ' ', '2', '0', ' ']])
      = .ok { words := [0x663300000000000000000003000000150000001500000014] } := by decide
theorem test_assemble_bnz :
    assemble 65536 (some [ascii ['s', '6', ' ', 'b', 'n', 'z', ' ', '-', '1', ' ', 's', '0']])
      = .ok { words := [0x733600000000000000000007FFFFFFFF7330000000000000] } := by decide
theorem test_duplicate_before_opcode :
    assemble 65536 (some [ascii ['a', ' ', 'o', 'u', 't', ' ', '3'], ascii ['a', ' ', 'f', 'o', 'o']])
      = .error (.duplicateLabel 1 2) := by decide
theorem test_blank_line :
    assemble 65536 (some [ascii ['a', ' ', 'o', 'u', 't', ' ', '3'], []]) = .error (.missingLabel 2) := by decide
theorem test_missing_opcode : assemble 65536 (some [ascii ['a']]) = .error (.missingOpcode 1) := by decide
theorem test_unknown_instruction :
    assemble 65536 (some [ascii ['a', ' ', 'A', 'd', 'd', ' ', '1']])
      = .error (.unknownInstruction 1 (ascii ['A', 'd', 'd'])) := by decide
theorem test_commas_do_not_separate :
    assemble 65536 (some [ascii ['a', ' ', 'a', 'd', 'd', ' ', '1', ',', '2', ',', '3']])
      = .error (.wrongArity .add (ascii ['a'])) := by decide
theorem test_integer_out_of_range :
    assemble 65536 (some [ascii ['a', ' ', 'l', 'i', 'n', ' ', '1', ' ', '2', '1', '4', '7', '4', '8', '3', '6', '4', '8']])
      = .error (.invalidOperand (ascii ['2', '1', '4', '7', '4', '8', '3', '6', '4', '8']) .lin (ascii ['a'])) := by decide
theorem test_no_plus_sign : parseInt (ascii ['+', '5']) = none ∧ parseInt (ascii ['r', '1']) = none := by decide
theorem test_label_too_long :
    assemble 65536 (some [ascii ['1', '2', '3', '4', '5', '6', '7', '8', '9', ' ', 'o', 'u', 't', ' ', '1']])
      = .error (.labelTooLong (ascii ['1', '2', '3', '4', '5', '6', '7', '8', '9'])) := by decide
theorem test_tag : tagOfName (ascii ['l', 'o', 'o', 'p']) = some 0x6C6F6F7000000000 := by decide
theorem test_describe :
    describe (.mul (ascii ['f', '3']) 21 21 20)
      = ascii ['f', '3', ':', ' ', 'm', 'u', 'l', ' ', '2', '1', ' ', '2', '1', ' ', '2', '0'] := by decide
theorem test_listing_of_word :
    describe (srcOfInstr (.lin tagA 1 (-5))) = ascii ['a', ':', ' ', 'l', 'i', 'n', ' ', '1', ' ', '-', '5'] := by decide
theorem test_sink_line : sinkLine (-17) = ascii ['-', '1', '7', '\n'] := by decide
theorem test_sink_line_min :
    sinkLine 0x80000000 = ascii ['-', '2', '1', '4', '7', '4', '8', '3', '6', '4', '8', '\n'] := by decide
theorem test_image_bytes_begin_with_proglen : (imageBytes { words := factorial }).take 6 = [0, 0, 0, 7, 0x66, 0x30] := by decide

/-! ### Witnesses: the hypotheses of each statement hold together, at the boundaries of its clauses -/

/-- A running engine over a program of one instruction with label "a". -/
def oneInstr (vals : List (Nat × Word)) (i : Instr) : State := running vals 0 [encode i]

theorem witness_EncodeOfDecodeIsTheWord :
    decode 0x610000000000000000000006000000010000000500000000 = .instr (.lin tagA 1 5) := by decide
theorem witness_OpcodeTableRowsDecide :
    (0x610000000000000000000006000000010000000500000000 : IWord) &&& rowMask .lin = rowMatch .lin ∧
    ∀ o, (0x610000000000000000000006000000010000000500000001 : IWord) &&& rowMask o ≠ rowMatch o := by
  refine ⟨by decide, fun o => ?_⟩
  cases o <;> decide
theorem witness_TagEqualityIsNameEquality :
    tagOfName [0x61] = some tagA ∧ tagOfName [0x41] = some 0x4100000000000000 ∧
    tagOfName [0x31, 0x32, 0x33, 0x34, 0x35, 0x36, 0x37, 0x38] = some 0x3132333435363738 := by decide
theorem witness_NameTagsSpellTheirNames : isNameTag tagA = true ∧ tagOfName [0x61] = some tagA := by decide
theorem witness_RegReadChecksItsBounds :
    inFile 0 State.reset ∧ inFile 63 State.reset ∧ (State.reset.regs.length : Int) ≤ (64 : Word).toInt ∧
    (0x80000000 : Word).toInt < 0 ∧ (-1 : Word).toInt < 0 := by decide
theorem witness_RegWriteChecksItsBounds :
    inFile 0 State.reset ∧ inFile 63 State.reset ∧ (State.reset.regs.length : Int) ≤ (0x7FFFFFFF : Word).toInt := by decide
theorem witness_LookupFindsEachLabelAtItsIndex :
    imageWellFormed 65536 (loadedImage (running [] 0 factorial)) = true ∧
    (6 < (running [] 0 factorial).progLen.toNat) := by decide
theorem witness_LookupAnswersTheLowestIndex :
    lblField ((running [] 0 factorial).imem.read 0) = 0x6630000000000000 ∧
    lblField ((running [] 0 factorial).imem.read 6) = 0x6636000000000000 ∧
    (∀ j < 6, lblField ((running [] 0 factorial).imem.read j) ≠ 0x6636000000000000) ∧
    (∀ k < 7, lblField ((running [] 0 factorial).imem.read k) ≠ 0) := by decide
theorem witness_CanonicalMemoriesWithEqualEntriesAreEqual :
    let m := (State.reset.imem.write 3 1).write 1 2
    let m' := (State.reset.imem.write 1 2).write 3 1
    m.wf = true ∧ m'.wf = true ∧ m.depth = m'.depth ∧ m = m' := by decide
theorem witness_MemoryStaysCanonicalInEveryCycle :
    (running [] 0 factorial).imem.wf = true ∧
    cycle { quietPorts with ldWe := true, ldAddr := 65535, ldData := 7 } { running [] 0 factorial with status := .idle }
      = .next { running [] 0 factorial with status := .idle, imem := (running [] 0 factorial).imem.write 65535 7 } :=
  ⟨by decide, rfl⟩
theorem witness_WrapIsTheCongruentValueInRange :
    (minInt ≤ -2147483648 ∧ (-2147483648 : Int) ≤ maxInt ∧ (2 ^ 32 : Int) ∣ 2147483648 - -2147483648) ∧
    (wrap 2147483648).toInt = -2147483648 ∧ (wrap 2147483647).toInt = 2147483647 := by decide
theorem witness_TdivIsTheQuotientRoundedTowardZero :
    (-2 : Int) ≠ 0 ∧ tdiv 7 (-2) = -3 ∧ (7 : Int) = -3 * -2 + 1 ∧ tdiv (-1) 2 = 0 := by decide
theorem witness_DivisionOverflowsOnlyForMinByMinusOne :
    (-1 : Word) ≠ 0 ∧ (0x80000000 : Word).toInt = minInt ∧ (-1 : Word).toInt = -1 := by decide
theorem witness_DivWritesTheTruncatedQuotientOrFaults :
    readValue 3 (oneInstr [(3, -1)] (.div tagA 1 2 3)) ≠ 0 ∧ readValue 3 (oneInstr [] (.div tagA 1 2 3)) = 0 ∧
    readValue 72 (oneInstr [(3, -1)] (.div tagA 1 2 72)) = 0 := by decide
theorem witness_ArithmeticFrame :
    exec (.add tagA 1 2 3) (oneInstr [(2, 3), (3, 4)] (.add tagA 1 2 3))
      = .next { oneInstr [(1, 7), (2, 3), (3, 4)] (.add tagA 1 2 3) with pc := 1 } ∧
    exec (.div tagA 1 2 3) (oneInstr [] (.div tagA 1 2 3))
      = .next { oneInstr [] (.div tagA 1 2 3) with status := .faulted, fcause := .divisionByZero } := ⟨rfl, rfl⟩
theorem witness_LinFrame :
    exec (.lin tagA 63 8) (oneInstr [] (.lin tagA 63 8)) = .next { oneInstr [(63, 8)] (.lin tagA 63 8) with pc := 1 } := rfl
theorem witness_OutAndBnzFrame :
    exec (.out tagA 1) (oneInstr [(1, 5)] (.out tagA 1))
      = .next { oneInstr [(1, 5)] (.out tagA 1) with pc := 1, ev := [.out 5] } ∧
    exec (.bnz tagA 1 tagA) (oneInstr [] (.bnz tagA 1 tagA)) = .next { oneInstr [] (.bnz tagA 1 tagA) with pc := 1 } :=
  ⟨rfl, rfl⟩
theorem witness_BnzBranchesWhenNotZero :
    readValue 20 (running [] 5 factorial) = 0 ∧ readValue 20 (running [(20, -1)] 5 factorial) ≠ 0 ∧
    lblField ((running [(20, -1)] 5 factorial).imem.read 3) = 0x6633000000000000 ∧
    (∀ j < 3, lblField ((running [(20, -1)] 5 factorial).imem.read j) ≠ 0x6633000000000000) ∧
    (∀ k < (running [(20, -1)] 5 factorial).progLen.toNat,
      lblField ((running [(20, -1)] 5 factorial).imem.read k) ≠ 0x4633000000000000) := by decide
/-- `a lin 64 7`, then `b out 64`: both indices are out of range. -/
def linOut64 : List IWord := [encode (.lin tagA 64 7), encode (.out tagB 64)]
theorem witness_LinThenOutEmitsTheImmediate :
    exec (.lin tagA 4 (-17)) (running [] 0 factorial) = .next { running [(4, -17)] 0 factorial with pc := 1 } ∧
    exec (.out tagA 4) { running [(4, -17)] 0 factorial with pc := 1 }
      = .next { running [(4, -17)] 0 factorial with pc := 2, ev := [.out (-17)] } ∧
    inFile 4 (running [] 0 factorial) ∧ ¬ inFile 64 (running [] 0 factorial) := ⟨rfl, rfl, by decide, by decide⟩
theorem witness_LinThenOut_outOfRange :
    ¬ inFile 64 (running [] 0 linOut64) ∧
    exec (.lin tagA 64 7) (running [] 0 linOut64)
      = .next { running [] 1 linOut64 with ev := [.invalidRegister .write 0 tagA 64] } ∧
    exec (.out tagB 64) { running [] 1 linOut64 with ev := [.invalidRegister .write 0 tagA 64] }
      = .next { running [] 2 linOut64 with
          ev := [.invalidRegister .write 0 tagA 64, .invalidRegister .read 1 tagB 64, .out 0] } :=
  ⟨by decide, rfl, rfl⟩
theorem witness_StepRunsTheDecodedInstruction :
    (running [] 6 factorial).status = .running ∧ (running [] 6 factorial).pc.toNat < (running [] 6 factorial).progLen.toNat ∧
    decode ((running [] 6 factorial).imem.read 6) = .instr (.out 0x6636000000000000 21) := by decide
theorem witness_StepFollowsTheLoop :
    (running [] 7 factorial).status = .running ∧ (running [] 7 factorial).progLen.toNat ≤ (running [] 7 factorial).pc.toNat ∧
    decode ((running [] 0 [0]).imem.read 0) = .illegal .opcodeZero ∧
    (running [] 0 [0]).pc.toNat < (running [] 0 [0]).progLen.toNat := by decide
theorem witness_EngineNotRunningKeepsItsState : State.reset.status ≠ .running := by decide
theorem witness_StepRunsThePlacedWord :
    decodeTableWord 192 0x000000000000000000000005000000010000000000000000 = some (.out 0 1) ∧
    decodeTableWord 192 0xFFFFFFFFFFFFFFFF00000006FFFFFFFFFFFFFFFF00000000
      = some (.lin 0xFFFFFFFFFFFFFFFF (-1) (-1)) := by decide
theorem witness_RunInvariant_running : RunInvariant (running [] 6 factorial) := by
  constructor <;> decide
theorem witness_RunInvariantIsKeptByEveryStep :
    step (running [] 7 factorial) = .next { running [] 7 factorial with status := .halted } ∧
    RunInvariant (running [] 7 factorial) := ⟨rfl, by constructor <;> decide⟩
theorem witness_RunInvariantIsKeptByEveryCycle :
    cycle { quietPorts with start := true } { running [] 0 factorial with status := .idle, regs := [0, 0] }
      = .next { running [] 0 factorial with regs := [0, 0] } ∧
    RunInvariant { running [] 0 factorial with status := .idle, regs := [0, 0] } :=
  ⟨rfl, ⟨by simp [running, State.reset], by decide, by decide, by decide, by decide, by decide⟩⟩
theorem witness_FaultsArePrecise :
    (oneInstr [(1, 9)] (.div tagA 70 1 72)).status = .running ∧
    step (oneInstr [(1, 9)] (.div tagA 70 1 72))
      = .next { oneInstr [(1, 9)] (.div tagA 70 1 72) with
          status := .faulted, fcause := .divisionByZero, ev := [.invalidRegister .read 0 tagA 72] } := ⟨rfl, rfl⟩
theorem witness_RunsEndOnlyAtTheEndOrAtAHardError :
    (running [] 0 [0]).status = .running ∧ (running [] 0 [0]).fcause = .none ∧
    step (running [] 0 [0]) = .next { running [] 0 [0] with status := .faulted, fcause := .illegalInstruction } :=
  ⟨rfl, rfl, rfl⟩
theorem witness_OnlyBnzTransfersControl :
    step (running [(20, 5)] 5 factorial) = .next { running [(20, 5)] 5 factorial with pc := 3 } ∧
    (3 : PcWord) ≠ 5 ∧ (3 : PcWord) ≠ 5 + 1 := ⟨rfl, by decide, by decide⟩
theorem witness_NoInstructionReadsTheEventLog :
    step (running [] 7 factorial) = .next { running [] 7 factorial with status := .halted } := rfl
theorem witness_WordsAtAndAboveProglenAreNeverRead :
    (∀ i < (running [] 0 factorial).progLen.toNat,
      ((running [] 0 factorial).imem.write 7 9).read i = (running [] 0 factorial).imem.read i) ∧
    (running [] 0 factorial).imem.write 7 9 ≠ (running [] 0 factorial).imem ∧
    step (running [] 0 factorial) = .next { running [(20, 6)] 0 factorial with pc := 1 } :=
  ⟨by decide, by decide, rfl⟩
theorem witness_WellFormedImageNeverRaisesIllegalInstruction :
    imageWellFormed 65536 (loadedImage (running [] 0 factorial)) = true ∧
    (running [] 0 factorial).fcause ≠ .illegalInstruction ∧
    step (running [] 0 factorial) = .next { running [(20, 6)] 0 factorial with pc := 1 } := ⟨by decide, by decide, rfl⟩
theorem witness_ResetClearsAllButTheProgram :
    cycle { quietPorts with rst := true } (running [] 3 factorial)
      = .next { running [] 0 factorial with status := .idle } ∧
    cycle quietPorts { running [] 7 factorial with status := .halted }
      = .next { running [] 7 factorial with status := .halted } := ⟨rfl, rfl⟩
theorem witness_LoadPortWritesOnlyInIdle :
    cycle { quietPorts with ldWe := true, ldAddr := 65536, ldData := 7 } State.reset = .next State.reset ∧
    cycle { quietPorts with ldWe := true, ldSel := true, ldData := 0x1FFFFFFFF } State.reset
      = .next { State.reset with progLen := 0xFFFFFFFF } := ⟨rfl, rfl⟩
theorem witness_LoadPort_outsideIdle :
    cycle { quietPorts with ldWe := true, ldData := 7 } { running [] 7 factorial with status := .halted }
      = .next { running [] 7 factorial with status := .halted } ∧
    cycle { quietPorts with ldWe := true, ldSel := true } (oneInstr [(1, 5)] (.out tagA 1))
      = .next { oneInstr [(1, 5)] (.out tagA 1) with pc := 1, ev := [.out 5] } := ⟨rfl, rfl⟩
theorem witness_StartIsHonouredOnlyInIdle :
    cycle { quietPorts with start := true } { State.reset with progLen := 65536 }
      = .next { State.reset with progLen := 65536, status := .running } ∧
    cycle { quietPorts with start := true } { State.reset with progLen := 65537 }
      = .next { State.reset with progLen := 65537 } := ⟨rfl, rfl⟩
theorem witness_BootStartsTheLoadedImage :
    ({ words := factorial } : Image).words.length ≤ (running [(1, 5)] 3 [0]).imem.depth ∧
    (running [(1, 5)] 3 [0]).imem.depth ≤ 2 ^ 31 - 1 := by decide
theorem witness_OutputPortCarriesTheOutputStream :
    cycle quietPorts (oneInstr [(1, 5)] (.out tagA 1))
      = .next { oneInstr [(1, 5)] (.out tagA 1) with pc := 1, ev := [.out 5] } := rfl
theorem witness_DiagnosticPortCarriesTheReports :
    cycle quietPorts (oneInstr [] (.add tagA 70 71 72))
      = .next { oneInstr [] (.add tagA 70 71 72) with
          pc := 1, ev := [.invalidRegister .read 0 tagA 71, .invalidRegister .read 0 tagA 72,
            .invalidRegister .write 0 tagA 70] } ∧
    diagValid 2 (outputs quietPorts (oneInstr [] (.add tagA 70 71 72))) = true := ⟨rfl, by decide⟩
theorem witness_StatusPortsShowTheRegisters :
    (outputs { quietPorts with dbgRaddr := 63 } (running [(63, 5)] 0 factorial)).dbgRdata = 5 ∧
    (outputs { quietPorts with dbgRaddr := 64 } (running [(63, 5)] 0 factorial)).dbgRdata = 0 := ⟨rfl, rfl⟩
theorem witness_AssembledImageIsWellFormed :
    assemble 65536 (some [[0x61, 0x20, 0x6F, 0x75, 0x74, 0x20, 0x31]]) = .ok { words := [encode (.out tagA 1)] } := by decide
theorem witness_WrittenProgramTranslatesToItself :
    (∀ i ∈ [SrcInstr.bnz [0x61] (-1) [0x62], SrcInstr.out [0x62] 1], hasTokenNames i) ∧
    ([SrcInstr.bnz [0x61] (-1) [0x62], SrcInstr.out [0x62] 1].map srcLabel).Nodup := by
  refine ⟨?_, by decide⟩
  simp [hasTokenNames, isTokenName, srcLabel, isSpace]
theorem witness_DuplicateLabelFailsWithBothLines :
    translate (some [[0x61, 0x20, 0x6F, 0x75, 0x74, 0x20, 0x31]]) = .ok [.out [0x61] 1] ∧
    tokens [0x61, 0x20, 0x78] = [[0x61], [0x78]] ∧ ([SrcInstr.out [0x61] 1].map srcLabel)[0]? = some [0x61] := by decide

end Sys2Proof.Tests
end

section
/-! PROOFS. The register file's ports, the label lookup and the step (spec/10_state.md R24, R25, R33, R42). -/

namespace Sys2Proof.Machine

/-! ### RegRead and RegWrite (R24, R25) -/

theorem not_inFile_iff {i : Word} {s : State} : ¬ inFile i s ↔ i.toInt < 0 ∨ s.regs.length ≤ i.toInt := by
  rw [inFile, not_and_or, not_le, not_lt]

/-- In range, the write port sets the register it names and no other (R25). -/
theorem regs_regWrite_getD {i v : Word} {s : State} (h : inFile i s) (k : Nat) :
    (regWrite i v s).regs.getD k 0 = if (k : Int) = i.toInt then v else s.regs.getD k 0 := by
  split
  next hk =>
    have hidx : k = i.toInt.toNat := by omega
    subst hidx
    exact rawReg_regWrite_same (regInRange_iff.2 h)
  next hk =>
    obtain ⟨h0, _⟩ := h
    exact regs_regWrite_other (by omega)

/-- Settles O9. -/
theorem regReadChecksItsBounds : Obligations.RegReadChecksItsBounds := by
  intro i s
  constructor
  · intro hin
    exact regRead_inRange (regInRange_iff.2 hin)
  · intro hout
    have hnot := not_inFile_iff.2 hout
    rw [regRead_eq, readValue_out hnot, readLog_out hnot, labelAtPc]

/-- Settles O10. -/
theorem regWriteChecksItsBounds : Obligations.RegWriteChecksItsBounds := by
  intro i v s
  constructor
  · intro hin
    refine ⟨fun k _ => regs_regWrite_getD hin k, ?_, regWrite_nregs i s v⟩
    rw [regWrite_inRange (regInRange_iff.2 hin)]
  · intro hout
    have hnot := not_inFile_iff.2 hout
    rw [regWrite_eq, writtenRegs_out hnot, writeLog_out hnot, labelAtPc]

/-! ### LabelLookup (R33) -/

/-- Settles O12, by the two laws of the lookup: a hit is the lowest matching index, a miss means there is none. -/
theorem lookupAnswersTheLowestIndex : Obligations.LookupAnswersTheLowestIndex := by
  intro t s
  constructor
  · intro k hk htag hlowest
    exact labelLookup_eq_some.2 ⟨htag, hk, hlowest⟩
  · exact labelLookup_eq_none.2

/-! ### The step, one equation per arm of the loop (R42) -/

theorem step_of_not_running {s : State} (hs : s.status ≠ .running) : step s = .next s := by
  simp [step, fetch, hs]

theorem step_of_end {s : State} (hs : s.status = .running) (hpc : s.progLen.toNat ≤ s.pc.toNat) :
    step s = .next (halt s) := by
  simp [step, fetch, hs, Nat.not_lt.2 hpc]

theorem step_of_illegal {s : State} {why : IllegalWord} (hs : s.status = .running)
    (hpc : s.pc.toNat < s.progLen.toNat) (hd : decode (ifetch s.pc s) = .illegal why) :
    step s = .next (raise .illegalInstruction s) := by
  simp [step, fetch, hs, hpc, hd]

theorem step_of_instr {s : State} {i : Instr} (hs : s.status = .running)
    (hpc : s.pc.toNat < s.progLen.toNat) (hd : decode (ifetch s.pc s) = .instr i) : step s = exec i s := by
  simp [step, fetch, hs, hpc, hd]

/-- Settles O31, one arm of the loop at a time. -/
theorem stepFollowsTheLoop : Obligations.StepFollowsTheLoop := by
  intro s
  constructor
  · intro hs
    refine ⟨step_of_end hs, fun hpc => ⟨?_, ?_⟩⟩
    · intro why hd
      exact step_of_illegal hs hpc hd
    · intro i hd
      exact step_of_instr hs hpc hd
  · intro hs t ht
    rw [step_of_not_running hs] at ht
    injection ht with heq
    exact heq.symm

end Sys2Proof.Machine
end

section
/-! PROOFS. The opcode table of R81: a row's mask and match value say that the word's opcode is the row's and its unused
operands are zero, and the decoder asks the same. -/

namespace Sys2Proof

/-! ### A word of a row -/

/-- The operands that an opcode does not use are zero (R73, R79 (3) and (4)). -/
def unusedZero : Opcode → IWord → Prop
  | .out, w => bField w = 0 ∧ cField w = 0
  | .lin, w => cField w = 0
  | _, _ => True

/-- The word belongs to the opcode's row. -/
def inRow (o : Opcode) (w : IWord) : Prop := opcField w = opcodeNumber o ∧ unusedZero o w

theorem opcodeNumber_injective : Function.Injective opcodeNumber := by
  intro o o' h
  apply Option.some.inj
  rw [← opcodeOfNumber_opcodeNumber o, h, opcodeOfNumber_opcodeNumber]

theorem inRow_unique {o o' : Opcode} {w : IWord} (h : inRow o w) (h' : inRow o' w) : o = o' :=
  opcodeNumber_injective (h.1.symm.trans h'.1)

/-! ### The masks, field by field -/

/-- The `B` field of a row's mask. -/
def maskB : Opcode → Word
  | .out => BitVec.allOnes 32
  | _ => 0

/-- The `C` field of a row's mask. -/
def maskC : Opcode → Word
  | .out => BitVec.allOnes 32
  | .lin => BitVec.allOnes 32
  | _ => 0

theorem rowMask_eq_mkWord (o : Opcode) : rowMask o = mkWord 0 (BitVec.allOnes 32) 0 (maskB o) (maskC o) := by
  cases o <;> decide

theorem rowMatch_eq_mkWord (o : Opcode) : rowMatch o = mkWord 0 (opcodeNumber o) 0 0 0 := by
  cases o <;> decide

/-- Two words are equal when their fields are. -/
theorem eq_iff_fields {w w' : IWord} :
    w = w' ↔ lblField w = lblField w' ∧ opcField w = opcField w' ∧ aField w = aField w' ∧ bField w = bField w' ∧
      cField w = cField w' := by
  constructor
  · rintro rfl
    exact ⟨rfl, rfl, rfl, rfl, rfl⟩
  · rintro ⟨hl, ho, ha, hb, hc⟩
    rw [← mkWord_fields w, ← mkWord_fields w', hl, ho, ha, hb, hc]

theorem lblField_and (w m : IWord) : lblField (w &&& m) = lblField w &&& lblField m := BitVec.extractLsb'_and
theorem opcField_and (w m : IWord) : opcField (w &&& m) = opcField w &&& opcField m := BitVec.extractLsb'_and
theorem aField_and (w m : IWord) : aField (w &&& m) = aField w &&& aField m := BitVec.extractLsb'_and
theorem bField_and (w m : IWord) : bField (w &&& m) = bField w &&& bField m := BitVec.extractLsb'_and
theorem cField_and (w m : IWord) : cField (w &&& m) = cField w &&& cField m := BitVec.extractLsb'_and

/-- A word passes a row's mask exactly when it belongs to the row. -/
theorem and_rowMask_eq_rowMatch_iff (w : IWord) (o : Opcode) : w &&& rowMask o = rowMatch o ↔ inRow o w := by
  have hmasked : w &&& rowMask o = rowMatch o ↔
      opcField w = opcodeNumber o ∧ bField w &&& maskB o = 0 ∧ cField w &&& maskC o = 0 := by
    rw [eq_iff_fields, rowMask_eq_mkWord, rowMatch_eq_mkWord]
    simp only [lblField_and, opcField_and, aField_and, bField_and, cField_and, lblField_mkWord, opcField_mkWord,
      aField_mkWord, bField_mkWord, cField_mkWord, BitVec.ofNat_eq_ofNat, BitVec.and_zero, BitVec.and_allOnes, true_and]
  rw [hmasked, inRow]
  cases o <;> simp only [unusedZero, maskB, maskC, BitVec.ofNat_eq_ofNat, BitVec.and_zero, BitVec.and_allOnes,
    true_and, and_true]

/-! ### The decoder reads the rows -/

/-- The instruction that the fields of a word give under an opcode (R73). -/
def rowInstr : Opcode → IWord → Instr
  | .add, w => .add (lblField w) (aField w) (bField w) (cField w)
  | .sub, w => .sub (lblField w) (aField w) (bField w) (cField w)
  | .mul, w => .mul (lblField w) (aField w) (bField w) (cField w)
  | .div, w => .div (lblField w) (aField w) (bField w) (cField w)
  | .out, w => .out (lblField w) (aField w)
  | .lin, w => .lin (lblField w) (aField w) (bField w)
  | .bnz, w => .bnz (lblField w) (aField w) (bField w ++ cField w)

@[simp] theorem opcodeOf_rowInstr (o : Opcode) (w : IWord) : opcodeOf (rowInstr o w) = o := by
  cases o <;> rfl

theorem decode_of_inRow {o : Opcode} {w : IWord} (h : inRow o w) : decode w = .instr (rowInstr o w) := by
  obtain ⟨hopc, hzero⟩ := h
  have ho : opcodeOfNumber (opcField w) = some o := by rw [hopc, opcodeOfNumber_opcodeNumber]
  cases o with
  | out => simp only [decode, ho]; exact if_pos hzero
  | lin => simp only [decode, ho]; exact if_pos hzero
  | _ => simp only [decode, ho, rowInstr]

theorem decode_of_not_inRow {w : IWord} (h : ∀ o, ¬ inRow o w) : ∃ why, decode w = .illegal why := by
  cases ho : opcodeOfNumber (opcField w) with
  | none =>
    simp only [decode, ho]
    split <;> exact ⟨_, rfl⟩
  | some o =>
    have hzero : ¬ unusedZero o w := fun hz => h o ⟨opcodeNumber_of_opcodeOfNumber ho, hz⟩
    cases o with
    | out => exact ⟨.outOperandNotZero, by simp only [decode, ho]; exact if_neg hzero⟩
    | lin => exact ⟨.linOperandNotZero, by simp only [decode, ho]; exact if_neg hzero⟩
    | _ => exact absurd trivial hzero

theorem inRow_of_decode {i : Instr} {w : IWord} (h : decode w = .instr i) : inRow (opcodeOf i) w := by
  by_cases hrow : ∃ o, inRow o w
  · obtain ⟨o, ho⟩ := hrow
    rw [decode_of_inRow ho] at h
    cases h
    rwa [opcodeOf_rowInstr]
  · obtain ⟨why, hwhy⟩ := decode_of_not_inRow (not_exists.1 hrow)
    rw [hwhy] at h
    cases h

/-- Settles O4: a row's mask test and the decoder both say that the word belongs to the row. -/
theorem opcodeTableRowsDecide : Obligations.OpcodeTableRowsDecide := by
  intro w
  simp only [ne_eq, and_rowMask_eq_rowMatch_iff]
  refine ⟨fun o => ⟨fun h => ?_, ?_⟩, fun o o' => inRow_unique, decode_of_not_inRow⟩
  · exact ⟨rowInstr o w, decode_of_inRow h, opcodeOf_rowInstr o w⟩
  · rintro ⟨i, hd, rfl⟩
    exact inRow_of_decode hd

end Sys2Proof
end

section
/-! PROOFS. The translation of a source, line by line (spec/30_encoding.md R95, R97), and the empty program (R106). -/

namespace Sys2Proof.Machine

/-! ### The label of a translated line -/

theorem srcLabel_of_srcOf {o : Opcode} {l : Name} {ws : List Word} {target : Option Name} {i : SrcInstr}
    (h : srcOf o l ws target = some i) : srcLabel i = l := by
  unfold srcOf at h
  split at h <;> cases h <;> rfl

theorem srcLabel_of_buildInstr {o : Opcode} {l : Name} {ops : List Token} {i : SrcInstr}
    (h : buildInstr o l ops = .ok i) : srcLabel i = l := by
  unfold buildInstr at h
  repeat' split at h
  all_goals cases h
  exact srcLabel_of_srcOf ‹_›

theorem labelIndex_eq_none {l : Name} {table : List Name} : labelIndex l table = none ↔ l ∉ table := by
  simp only [labelIndex, List.findIdx?_eq_none_iff, decide_eq_false_iff_not]
  exact ⟨fun h hmem => h l hmem rfl, fun h x hx hxl => h (hxl ▸ hx)⟩

/-- In a table without duplicates, an entry's index is the one the label is found at. -/
theorem labelIndex_of_nodup {l : Name} {table : List Name} {k : Nat} (hnd : table.Nodup) (hk : table[k]? = some l) :
    labelIndex l table = some k := by
  obtain ⟨hlt, rfl⟩ := List.getElem?_eq_some_iff.1 hk
  refine List.findIdx?_eq_some_iff_getElem.2 ⟨hlt, by simp, fun j hj => ?_⟩
  simpa [hnd.getElem_inj_iff] using hj.ne

/-- What a line that translates holds: a new label, a mnemonic, and operands that build the instruction (R95). -/
theorem translateLine_ok {prog : List SrcInstr} {line : List Byte} {i : SrcInstr} (h : translateLine prog line = .ok i) :
    ∃ l m ops o, tokens line = l :: m :: ops ∧ labelIndex l (labelTable prog) = none ∧ opcodeOfToken m = some o ∧
      buildInstr o l ops = .ok i := by
  unfold translateLine at h
  split at h
  next => cases h
  next l toks ht =>
    split at h
    next => cases h
    next hl =>
      split at h
      next => cases h
      next m ops =>
        split at h
        next => cases h
        next o ho => exact ⟨l, m, ops, o, ht, hl, ho, h⟩

/-- A line that translates adds a label that the table does not hold. -/
theorem srcLabel_not_mem_of_translateLine {prog : List SrcInstr} {line : List Byte} {i : SrcInstr}
    (h : translateLine prog line = .ok i) : srcLabel i ∉ labelTable prog := by
  obtain ⟨l, m, ops, o, _, hl, _, hb⟩ := translateLine_ok h
  rw [srcLabel_of_buildInstr hb]
  exact labelIndex_eq_none.1 hl

theorem translateLine_of_duplicate {prog : List SrcInstr} {line : List Byte} {l : Name} {toks : List Token} {k : Nat}
    (ht : tokens line = l :: toks) (hl : labelIndex l (labelTable prog) = some k) :
    translateLine prog line = .error (.duplicateLabel (k + 1) (prog.length + 1)) := by
  simp [translateLine, ht, hl]

/-! ### The lines in order -/

theorem translateFrom_cons_ok {prog p : List SrcInstr} {line : List Byte} {lines : List (List Byte)} :
    translateFrom prog (line :: lines) = .ok p ↔
      ∃ i, translateLine prog line = .ok i ∧ translateFrom (prog ++ [i]) lines = .ok p := by
  cases h : translateLine prog line <;> simp [translateFrom, h]

theorem translateFrom_cons_error {prog : List SrcInstr} {line : List Byte} {e : AsmError}
    (h : translateLine prog line = .error e) (lines : List (List Byte)) :
    translateFrom prog (line :: lines) = .error e := by
  simp [translateFrom, h]

theorem translateFrom_append {prog p : List SrcInstr} {xs : List (List Byte)} (h : translateFrom prog xs = .ok p)
    (ys : List (List Byte)) : translateFrom prog (xs ++ ys) = translateFrom p ys := by
  induction xs generalizing prog with
  | nil =>
    cases h
    rfl
  | cons x xs ih =>
    obtain ⟨i, hi, hxs⟩ := translateFrom_cons_ok.1 h
    rw [← ih hxs]
    simp [translateFrom, hi]

/-- Every line that translates gives one instruction. -/
theorem length_of_translateFrom {prog p : List SrcInstr} {lines : List (List Byte)}
    (h : translateFrom prog lines = .ok p) : p.length = prog.length + lines.length := by
  induction lines generalizing prog with
  | nil =>
    cases h
    rfl
  | cons line lines ih =>
    obtain ⟨i, _, hrest⟩ := translateFrom_cons_ok.1 h
    have hlen := ih hrest
    simp only [List.length_append, List.length_cons, List.length_nil] at hlen ⊢
    omega

theorem nodup_labelTable_of_translateFrom {prog p : List SrcInstr} {lines : List (List Byte)}
    (h : translateFrom prog lines = .ok p) (hnd : (labelTable prog).Nodup) : (labelTable p).Nodup := by
  induction lines generalizing prog with
  | nil =>
    cases h
    exact hnd
  | cons line lines ih =>
    obtain ⟨i, hi, hrest⟩ := translateFrom_cons_ok.1 h
    have hsnoc : labelTable (prog ++ [i]) = (labelTable prog).concat (srcLabel i) := by simp [labelTable]
    refine ih hrest ?_
    rw [hsnoc]
    exact hnd.concat (srcLabel_not_mem_of_translateLine hi)

/-- Settles O57: the labels of the translated lines are distinct, so the earlier line is the one the table finds. -/
theorem duplicateLabelFailsWithBothLines : Obligations.DuplicateLabelFailsWithBothLines := by
  intro lines rest line prog l toks k hlines htoks hk
  have hprog : translateFrom [] lines = .ok prog := hlines
  have hnd : (labelTable prog).Nodup := nodup_labelTable_of_translateFrom hprog List.nodup_nil
  have hlen : prog.length = lines.length := by simpa using length_of_translateFrom hprog
  calc translate (some (lines ++ line :: rest))
      = translateFrom prog (line :: rest) := translateFrom_append hprog _
    _ = .error (.duplicateLabel (k + 1) (prog.length + 1)) :=
        translateFrom_cons_error (translateLine_of_duplicate htoks (labelIndex_of_nodup hnd hk)) rest
    _ = .error (.duplicateLabel (k + 1) (lines.length + 1)) := by rw [hlen]

/-! ### The empty program (R106) -/

theorem assemble_empty (depth : Nat) : assemble depth (some []) = .ok { words := [] } := by
  simp [assemble, translate, translateFrom, emitImage, emitWords]

/-- Booting the empty image gives the state after reset, running with PROGLEN 0. -/
theorem boot_empty (s : State) :
    boot { words := [] } s = { assertReset s with progLen := 0, status := .running } := by
  simp [boot, loadImage, loadWords, loadPort, startPort, assertReset, imageLen]

/-- Settles O58: the loop test fails at once, with `pc` and PROGLEN both 0. -/
theorem emptySourceIsTheEmptyProgram : Obligations.EmptySourceIsTheEmptyProgram := by
  refine ⟨assemble_empty, fun s => ?_⟩
  rw [boot_empty]
  exact ⟨rfl, rfl, step_of_end rfl (Nat.zero_le _)⟩

end Sys2Proof.Machine
end

section
/-! PROOFS. `lin` (spec/40_load_immediate.md R120): its word is in the opcode table's row of `lin`, and it is one register
write, then one advance. -/

namespace Sys2Proof.Machine

theorem decode_mkWord_lin (l : Tag) (r x : Word) : decode (mkWord l 6 r x 0) = .instr (.lin l r x) := by
  have hrow : inRow .lin (mkWord l 6 r x 0) := ⟨opcField_mkWord .., cField_mkWord ..⟩
  rw [decode_of_inRow hrow, rowInstr, lblField_mkWord, aField_mkWord, bField_mkWord]

theorem exec_lin (l : Tag) (r x : Word) (s : State) : exec (.lin l r x) s = .next (advance (regWrite r x s)) :=
  execLin_eq r x s

/-- Settles O24, by the decoder's row of `lin` and the law of the write port, which covers an `r` out of range too. -/
theorem linWritesTheImmediate : Obligations.LinWritesTheImmediate := by
  intro l r x s
  refine ⟨decode_mkWord_lin l r x, ?_⟩
  rw [exec_lin, regWrite_eq, advance]

end Sys2Proof.Machine
end

section
/-! PROOFS. Division rounded toward zero (spec/41_arithmetic.md R131): the quotient and its remainder. -/

namespace Sys2Proof.Machine

/-- What R131 asks of a remainder: it is smaller in magnitude than the divisor, and 0 or of the dividend's sign. -/
def IsTruncRemainder (a b rem : Int) : Prop := rem.natAbs < b.natAbs ∧ (rem = 0 ∨ rem.sign = a.sign)

/-- The library's remainder of the division rounded toward zero is one. -/
theorem isTruncRemainder_tmod (a : Int) {b : Int} (hb : b ≠ 0) : IsTruncRemainder a b (a.tmod b) := by
  constructor
  · rw [Int.natAbs_tmod]
    exact Nat.mod_lt _ (Int.natAbs_pos.2 hb)
  · by_cases hdvd : b ∣ a
    · exact .inl (Int.tmod_eq_zero_of_dvd hdvd)
    · exact .inr (by rw [Int.sign_tmod, if_neg hdvd])

theorem eq_tdiv_mul_add_tmod (a b : Int) : a = tdiv a b * b + a.tmod b := by
  rw [tdiv_eq, Int.tdiv_mul_add_tmod]

/-- The conditions on the remainder leave one quotient: the remainder stands on the dividend's side of 0. -/
theorem tdiv_unique {a b q rem : Int} (hb : b ≠ 0) (ha : a = q * b + rem) (hrem : IsTruncRemainder a b rem) :
    tdiv a b = q := by
  obtain ⟨hlt, hsign⟩ := hrem
  have heq : rem + b * q = a := by rw [ha, mul_comm, add_comm]
  rw [tdiv_eq]
  rcases le_total 0 a with hpos | hneg
  · have h0 : 0 ≤ rem := by
      rcases hsign with rfl | hs
      · exact le_rfl
      · exact Int.sign_nonneg_iff.1 (hs ▸ Int.sign_nonneg_iff.2 hpos)
    exact ((Int.tdiv_tmod_unique hpos hb).2 ⟨heq, h0, by omega⟩).1
  · have h0 : rem ≤ 0 := by
      rcases hsign with rfl | hs
      · exact le_rfl
      · exact Int.sign_nonpos_iff.1 (hs ▸ Int.sign_nonpos_iff.2 hneg)
    exact ((Int.tdiv_tmod_unique' hneg hb).2 ⟨heq, by omega, h0⟩).1

/-- Settles O17: the library's remainder is a witness, and no other quotient has one. -/
theorem tdivIsTheQuotientRoundedTowardZero : Obligations.TdivIsTheQuotientRoundedTowardZero := by
  intro a b q hb
  refine ⟨⟨?_, ?_⟩, rfl⟩
  · rintro rfl
    exact ⟨a.tmod b, eq_tdiv_mul_add_tmod a b, isTruncRemainder_tmod a hb⟩
  · rintro ⟨rem, ha, hrem⟩
    exact tdiv_unique hb ha hrem

end Sys2Proof.Machine
end

section
/-! PROOFS. `add`, `sub`, `mul` and `div` (spec/41_arithmetic.md R132 to R135): the four words and the shape that the
four instructions share are treated once, over the ALU's operation selector. -/

namespace Sys2Proof.Machine

/-! ### The four instructions over the operation selector -/

/-- The opcode that asks for an ALU operation (R72). -/
def aluOpcode : AluOp → Opcode
  | .add => .add
  | .sub => .sub
  | .mul => .mul
  | .div => .div

/-- The instruction term of an ALU operation (R83). -/
def aluTerm : AluOp → Tag → Word → Word → Word → Instr
  | .add => .add
  | .sub => .sub
  | .mul => .mul
  | .div => .div

theorem decode_mkWord_alu (op : AluOp) (l : Tag) (r s1 s2 : Word) :
    decode (mkWord l (opcodeNumber (aluOpcode op)) r s1 s2) = .instr (aluTerm op l r s1 s2) := by
  have hrow : inRow (aluOpcode op) (mkWord l (opcodeNumber (aluOpcode op)) r s1 s2) :=
    ⟨opcField_mkWord .., by cases op <;> trivial⟩
  rw [decode_of_inRow hrow]
  cases op <;> simp only [aluOpcode, aluTerm, rowInstr, lblField_mkWord, aField_mkWord, bField_mkWord, cField_mkWord]

theorem exec_aluTerm (op : AluOp) (l : Tag) (r s1 s2 : Word) (s : State) :
    exec (aluTerm op l r s1 s2) s = .next (aluInstr op r s1 s2 s) := by
  cases op <;> rfl

/-! ### The two outcomes of an ALU instruction (R130, R135) -/

theorem exec_aluTerm_of_result {op : AluOp} {r s1 s2 v : Word} {s : State} (l : Tag)
    (h : alu op (readValue s1 s) (readValue s2 s) = .result v) :
    exec (aluTerm op l r s1 s2) s = .next
      { s with
        regs := writtenRegs r v s
        pc := s.pc + 1
        ev := s.ev ++ readLog s1 s ++ readLog s2 s ++ writeLog r s } := by
  rw [exec_aluTerm]
  obtain ⟨v', hv', heq⟩ | ⟨hz, _⟩ := aluInstr_cases op r s1 s2 s
  · obtain rfl : v' = v := AluAnswer.result.inj (hv'.symm.trans h)
    rw [heq, regWrite_eq, advance, writtenRegs_ev, writeLog_ev]
  · rw [h] at hz
    cases hz

theorem exec_aluTerm_of_divByZero {op : AluOp} {r s1 s2 : Word} {s : State} (l : Tag)
    (h : alu op (readValue s1 s) (readValue s2 s) = .divByZero) :
    exec (aluTerm op l r s1 s2) s = .next
      { s with
        status := .faulted
        fcause := .divisionByZero
        ev := s.ev ++ readLog s1 s ++ readLog s2 s } := by
  rw [exec_aluTerm]
  obtain ⟨v, hv, _⟩ | ⟨_, heq⟩ := aluInstr_cases op r s1 s2 s
  · rw [h] at hv
    cases hv
  · rw [heq, raise, causeOf]

theorem toInt_ne_zero {v : Word} (h : v ≠ 0) : v.toInt ≠ 0 :=
  fun hv => h (BitVec.eq_of_toInt_eq (hv.trans BitVec.toInt_zero.symm))

theorem alu_div_of_ne_zero (a : Word) {b : Word} (hb : b ≠ 0) :
    alu .div a b = .result (wrap (tdiv a.toInt b.toInt)) :=
  if_neg (mt (divisorIsZero_iff b).1 hb)

theorem alu_div_zero (a : Word) : alu .div a 0 = .divByZero := rfl

/-! ### The four rules -/

/-- Settles O19. -/
theorem addWritesTheWrappedSum : Obligations.AddWritesTheWrappedSum := by
  intro l r s1 s2 s
  exact ⟨decode_mkWord_alu .add l r s1 s2, _, wrap_toInt _, exec_aluTerm_of_result (op := .add) l rfl⟩

/-- Settles O20. -/
theorem subWritesTheWrappedDifference : Obligations.SubWritesTheWrappedDifference := by
  intro l r s1 s2 s
  exact ⟨decode_mkWord_alu .sub l r s1 s2, _, wrap_toInt _, exec_aluTerm_of_result (op := .sub) l rfl⟩

/-- Settles O21. -/
theorem mulWritesTheWrappedProduct : Obligations.MulWritesTheWrappedProduct := by
  intro l r s1 s2 s
  exact ⟨decode_mkWord_alu .mul l r s1 s2, _, wrap_toInt _, exec_aluTerm_of_result (op := .mul) l rfl⟩

/-- Settles O22, by the two outcomes of the ALU: a quotient rounded toward zero, with the library's remainder as the
remainder of R131, or the `div_by_zero` signal. -/
theorem divWritesTheTruncatedQuotientOrFaults : Obligations.DivWritesTheTruncatedQuotientOrFaults := by
  intro l r s1 s2 s
  refine ⟨decode_mkWord_alu .div l r s1 s2, fun hne => ?_, fun hzero => ?_⟩
  · have hdivisor : (readValue s2 s).toInt ≠ 0 := toInt_ne_zero hne
    obtain ⟨hlt, hsign⟩ := isTruncRemainder_tmod (readValue s1 s).toInt hdivisor
    exact ⟨_, _, _, eq_tdiv_mul_add_tmod _ _, hlt, hsign, wrap_toInt _,
      exec_aluTerm_of_result (op := .div) l (alu_div_of_ne_zero _ hne)⟩
  · exact exec_aluTerm_of_divByZero (op := .div) l (by rw [hzero, alu_div_zero])

end Sys2Proof.Machine
end

section
/-! PROOFS. `out` (spec/42_output.md R150): its word is in the opcode table's row of `out`, and it is one register read,
one `Out` event, then one advance. -/

namespace Sys2Proof.Machine

theorem decode_mkWord_out (l : Tag) (s1 : Word) : decode (mkWord l 5 s1 0 0) = .instr (.out l s1) := by
  have hrow : inRow .out (mkWord l 5 s1 0 0) := ⟨opcField_mkWord .., bField_mkWord .., cField_mkWord ..⟩
  rw [decode_of_inRow hrow, rowInstr, lblField_mkWord, aField_mkWord]

theorem exec_out (l : Tag) (s1 : Word) (s : State) :
    exec (.out l s1) s = .next (advance (emit (.out (readValue s1 s)) { s with ev := s.ev ++ readLog s1 s })) :=
  execOut_eq s1 s

/-- Settles O26, by the decoder's row of `out` and the law of its execution, which covers an `s1` out of range too: the read's
report comes before the `Out` event. -/
theorem outEmitsTheValueRead : Obligations.OutEmitsTheValueRead := by
  intro l s1 s
  refine ⟨decode_mkWord_out l s1, ?_⟩
  rw [exec_out, advance, emit]

end Sys2Proof.Machine
end

section
/-! PROOFS. `bnz` (spec/43_branch.md R160, R162, R163): its word is in the opcode table's row of `bnz`, and its effect is
settled by two questions: is the value read 0, and does the lookup of the label hit. -/

namespace Sys2Proof.Machine

theorem decode_mkWord_bnz (l : Tag) (s1 : Word) (target : Tag) :
    decode (mkWord l 7 s1 (tagHigh target) (tagLow target)) = .instr (.bnz l s1 target) := by
  have hrow : inRow .bnz (mkWord l 7 s1 (tagHigh target) (tagLow target)) := ⟨opcField_mkWord .., trivial⟩
  rw [decode_of_inRow hrow, rowInstr, lblField_mkWord, aField_mkWord, bField_mkWord, cField_mkWord,
    tagHigh_append_tagLow]

theorem exec_bnz (l : Tag) (s1 : Word) (target : Tag) (s : State) : exec (.bnz l s1 target) s = execBnz s1 target s := rfl

theorem isNonZero_iff (v : Word) : isNonZero v = true ↔ v ≠ 0 :=
  decide_eq_true_iff.trans (BitVec.toInt_ne (y := 0))

/-- A value other than 0 was read from a register that exists, so its read reported nothing (R24). -/
theorem ev_append_readLog_of_ne_zero {i : Word} {s : State} (h : readValue i s ≠ 0) : s.ev ++ readLog i s = s.ev := by
  by_cases hin : inFile i s
  · rw [readLog_in hin, List.append_nil]
  · exact absurd (readValue_out hin) h

/-! ### The three outcomes -/

/-- R162: the label is not looked up. -/
theorem exec_bnz_of_zero {s1 : Word} {s : State} (l target : Tag) (hv : readValue s1 s = 0) :
    exec (.bnz l s1 target) s = .next (advance { s with ev := s.ev ++ readLog s1 s }) := by
  have hnz : isNonZero (readValue s1 s) ≠ true := fun h => (isNonZero_iff _).1 h hv
  rw [exec_bnz]
  obtain ⟨_, heq⟩ | ⟨h, _, _⟩ | ⟨_, h, _, _⟩ := execBnz_cases s1 target s
  · exact heq
  · exact absurd h hnz
  · exact absurd h hnz

/-- R160, a taken branch: no increment follows. -/
theorem exec_bnz_of_hit {s1 : Word} {target : Tag} {s : State} {k : Nat} (l : Tag) (hv : readValue s1 s ≠ 0)
    (hk : labelLookup target s = some k) : exec (.bnz l s1 target) s = .next (branchTo k s) := by
  rw [exec_bnz]
  obtain ⟨h, _⟩ | ⟨_, hnone, _⟩ | ⟨k', _, hk', heq⟩ := execBnz_cases s1 target s
  · rw [(isNonZero_iff _).2 hv] at h
    cases h
  · rw [hk] at hnone
    cases hnone
  · obtain rfl : k' = k := Option.some.inj (hk'.symm.trans hk)
    rw [heq, ev_append_readLog_of_ne_zero hv]

/-- R163: one report at this instruction, then the fall-through. -/
theorem exec_bnz_of_miss {s1 : Word} {target : Tag} {s : State} (l : Tag) (hv : readValue s1 s ≠ 0)
    (hmiss : labelLookup target s = none) :
    exec (.bnz l s1 target) s = .next (advance (emit (.invalidLabel s.pc (labelAtPc s) target) s)) := by
  rw [exec_bnz]
  obtain ⟨h, _⟩ | ⟨_, _, heq⟩ | ⟨_, _, hk, _⟩ := execBnz_cases s1 target s
  · rw [(isNonZero_iff _).2 hv] at h
    cases h
  · rw [heq, ev_append_readLog_of_ne_zero hv, emit]
  · rw [hmiss] at hk
    cases hk

/-- Settles O27, one outcome at a time: the lookup hits at the lowest index that carries the label, and misses when no
index below PROGLEN does (R33). -/
theorem bnzBranchesWhenNotZero : Obligations.BnzBranchesWhenNotZero := by
  intro l s1 target s
  refine ⟨decode_mkWord_bnz l s1 target, ?_, fun hv => ⟨?_, ?_⟩⟩
  · intro hv
    rw [exec_bnz_of_zero l target hv, advance]
  · intro k hk htag hlowest
    have hhit : labelLookup target s = some k := labelLookup_eq_some.2 ⟨htag, hk, hlowest⟩
    rw [exec_bnz_of_hit l hv hhit, branchTo]
  · intro hnone
    have hmiss : labelLookup target s = none := labelLookup_eq_none.2 hnone
    rw [exec_bnz_of_miss l hv hmiss, advance, emit, labelAtPc]

end Sys2Proof.Machine
end

section
/-! PROOFS. Hard errors (spec/60_exceptions.md R186, R187): a step that ends FAULTED is `raise` after nothing but register
reads. -/

namespace Sys2Proof.Machine

/-! ### Instructions without a hard error -/

theorem exec_lin_status {l : Tag} {r x : Word} {s t : State} (h : exec (.lin l r x) s = .next t) :
    t.status = s.status := by
  rw [exec_lin] at h
  cases h
  simp

theorem exec_out_status {l : Tag} {s1 : Word} {s t : State} (h : exec (.out l s1) s = .next t) :
    t.status = s.status := by
  rw [exec_out] at h
  cases h
  simp

theorem exec_bnz_status {l : Tag} {s1 : Word} {target : Tag} {s t : State} (h : exec (.bnz l s1 target) s = .next t) :
    t.status = s.status := by
  rw [exec_bnz] at h
  obtain ⟨_, heq⟩ | ⟨_, _, heq⟩ | ⟨_, _, _, heq⟩ := execBnz_cases s1 target s <;>
  · rw [heq] at h
    cases h
    simp

/-! ### What a fault leaves -/

/-- A state that differs from `s` by a hard error raised after register reads only (R186, R187). -/
def RaisedAfterReads (s t : State) : Prop :=
  ∃ (f : HardError) (idxs : List Word), t = raise f { s with ev := s.ev ++ idxs.flatMap (readLog · s) }

theorem aluInstr_raisedAfterReads {op : AluOp} {r s1 s2 : Word} {s : State} (hs : s.status ≠ .faulted)
    (hf : (aluInstr op r s1 s2 s).status = .faulted) : RaisedAfterReads s (aluInstr op r s1 s2 s) := by
  obtain ⟨v, _, heq⟩ | ⟨_, heq⟩ := aluInstr_cases op r s1 s2 s
  · rw [heq, advance_status, regWrite_status] at hf
    exact absurd hf hs
  · exact ⟨.divisionByZero, [s1, s2], by simp [heq]⟩

theorem exec_aluTerm_raisedAfterReads {op : AluOp} {l : Tag} {r s1 s2 : Word} {s t : State} (hs : s.status ≠ .faulted)
    (h : exec (aluTerm op l r s1 s2) s = .next t) (hf : t.status = .faulted) : RaisedAfterReads s t := by
  rw [exec_aluTerm] at h
  cases h
  exact aluInstr_raisedAfterReads hs hf

theorem exec_raisedAfterReads {i : Instr} {s t : State} (hs : s.status ≠ .faulted) (h : exec i s = .next t)
    (hf : t.status = .faulted) : RaisedAfterReads s t := by
  cases i with
  | add => exact exec_aluTerm_raisedAfterReads (op := .add) hs h hf
  | sub => exact exec_aluTerm_raisedAfterReads (op := .sub) hs h hf
  | mul => exact exec_aluTerm_raisedAfterReads (op := .mul) hs h hf
  | div => exact exec_aluTerm_raisedAfterReads (op := .div) hs h hf
  | out => exact absurd (exec_out_status h ▸ hf) hs
  | lin => exact absurd (exec_lin_status h ▸ hf) hs
  | bnz => exact absurd (exec_bnz_status h ▸ hf) hs

/-- The one way into FAULTED: an illegal word raises before any read, an instruction after its reads. -/
theorem step_raisedAfterReads {s t : State} (hs : s.status ≠ .faulted) (h : step s = .next t)
    (hf : t.status = .faulted) : RaisedAfterReads s t := by
  obtain ⟨_, rfl⟩ | ⟨_, _, rfl⟩ | ⟨_, _, _, rfl⟩ | ⟨_, _, i, _, hexec⟩ := step_cases h
  · exact absurd hf hs
  · cases hf
  · exact ⟨.illegalInstruction, [], by simp⟩
  · exact exec_raisedAfterReads hs hexec hf

theorem eq_invalidRegister_of_mem_readLog {e : Event} {i : Word} {s : State} (h : e ∈ readLog i s) :
    e = .invalidRegister .read s.pc (labelAtPc s) i := by
  by_cases hin : inFile i s
  · rw [readLog_in hin] at h
    cases h
  · rw [readLog_out hin] at h
    exact List.mem_singleton.1 h

/-- Settles O40: the fault is `raise` after reads, `raise` writes STATUS and FCAUSE alone, and no step is enabled after it. -/
theorem faultsArePrecise : Obligations.FaultsArePrecise := by
  intro s t hs h hf
  have hnot : s.status ≠ .faulted := by simp [hs]
  obtain ⟨f, idxs, rfl⟩ := step_raisedAfterReads hnot h hf
  refine ⟨rfl, rfl, rfl, rfl, _, rfl, ?_, ?_⟩
  · intro e he
    obtain ⟨i, _, hi⟩ := List.mem_flatMap.1 he
    exact ⟨i, eq_invalidRegister_of_mem_readLog hi⟩
  · intro u hu
    rw [step_of_not_running (by simp)] at hu
    cases hu
    rfl

end Sys2Proof.Machine
end

section
/-! PROOFS. What a step can change of the host's view (spec/10_state.md R41 (5), spec/60_exceptions.md R190): it keeps the
program, and it appends at most three events to the log. -/

namespace Sys2Proof.Machine

/-- `t` holds the program of `s`, and the log of `s` with at most three more events. -/
structure KeepsProgramAndAppends (s t : State) : Prop where
  imem : t.imem = s.imem
  progLen : t.progLen = s.progLen
  log : ∃ new : List Event, t.ev = s.ev ++ new ∧ new.length ≤ 3

theorem aluInstr_keepsProgramAndAppends (op : AluOp) (r s1 s2 : Word) (s : State) :
    KeepsProgramAndAppends s (aluInstr op r s1 s2 s) := by
  have h1 := readLog_length s1 s
  have h2 := readLog_length s2 s
  have hw := writeLog_length r s
  obtain ⟨v, _, heq⟩ | ⟨_, heq⟩ := aluInstr_cases op r s1 s2 s
  · refine ⟨by simp [heq], by simp [heq], readLog s1 s ++ readLog s2 s ++ writeLog r s, by simp [heq, regWrite_eq], ?_⟩
    simp only [List.length_append]
    omega
  · refine ⟨by simp [heq], by simp [heq], readLog s1 s ++ readLog s2 s, by simp [heq], ?_⟩
    simp only [List.length_append]
    omega

theorem exec_aluTerm_keepsProgramAndAppends {op : AluOp} {l : Tag} {r s1 s2 : Word} {s t : State}
    (h : exec (aluTerm op l r s1 s2) s = .next t) : KeepsProgramAndAppends s t := by
  rw [exec_aluTerm] at h
  cases h
  exact aluInstr_keepsProgramAndAppends op r s1 s2 s

theorem readLog_concat_length (i : Word) (s : State) (e : Event) : (readLog i s ++ [e]).length ≤ 2 := by
  have h := readLog_length i s
  simp only [List.length_append, List.length_singleton]
  omega

theorem exec_out_keepsProgramAndAppends {l : Tag} {s1 : Word} {s t : State} (h : exec (.out l s1) s = .next t) :
    KeepsProgramAndAppends s t := by
  rw [exec_out] at h
  cases h
  exact ⟨rfl, rfl, readLog s1 s ++ [.out (readValue s1 s)], by simp, (readLog_concat_length ..).trans (by omega)⟩

theorem exec_lin_keepsProgramAndAppends {l : Tag} {r x : Word} {s t : State} (h : exec (.lin l r x) s = .next t) :
    KeepsProgramAndAppends s t := by
  rw [exec_lin] at h
  cases h
  exact ⟨by simp, by simp, writeLog r s, by simp [regWrite_eq], (writeLog_length r s).trans (by omega)⟩

theorem exec_bnz_keepsProgramAndAppends {l : Tag} {s1 : Word} {target : Tag} {s t : State}
    (h : exec (.bnz l s1 target) s = .next t) : KeepsProgramAndAppends s t := by
  rw [exec_bnz] at h
  obtain ⟨_, heq⟩ | ⟨_, _, heq⟩ | ⟨_, _, _, heq⟩ := execBnz_cases s1 target s <;> rw [heq] at h <;> cases h
  · exact ⟨rfl, rfl, readLog s1 s, rfl, (readLog_length s1 s).trans (by omega)⟩
  · exact ⟨rfl, rfl, readLog s1 s ++ [.invalidLabel s.pc (labelAtPc s) target], by simp,
      (readLog_concat_length ..).trans (by omega)⟩
  · exact ⟨rfl, rfl, readLog s1 s, rfl, (readLog_length s1 s).trans (by omega)⟩

theorem exec_keepsProgramAndAppends {i : Instr} {s t : State} (h : exec i s = .next t) : KeepsProgramAndAppends s t := by
  cases i with
  | add => exact exec_aluTerm_keepsProgramAndAppends (op := .add) h
  | sub => exact exec_aluTerm_keepsProgramAndAppends (op := .sub) h
  | mul => exact exec_aluTerm_keepsProgramAndAppends (op := .mul) h
  | div => exact exec_aluTerm_keepsProgramAndAppends (op := .div) h
  | out => exact exec_out_keepsProgramAndAppends h
  | lin => exact exec_lin_keepsProgramAndAppends h
  | bnz => exact exec_bnz_keepsProgramAndAppends h

theorem step_keepsProgramAndAppends {s t : State} (h : step s = .next t) : KeepsProgramAndAppends s t := by
  obtain ⟨_, rfl⟩ | ⟨_, _, rfl⟩ | ⟨_, _, _, rfl⟩ | ⟨_, _, i, _, hexec⟩ := step_cases h
  · exact ⟨rfl, rfl, [], by simp, by simp⟩
  · exact ⟨rfl, rfl, [], by simp, by simp⟩
  · exact ⟨rfl, rfl, [], by simp, by simp⟩
  · exact exec_keepsProgramAndAppends hexec

end Sys2Proof.Machine
end

section
/-! PROOFS. The load port and the start port (spec/70_reset_and_hazards.md R227, R228). A cycle without reset is a step
outside IDLE, and in IDLE the load write followed by a change of STATUS alone. -/

namespace Sys2Proof.Machine

/-! ### What the ports request in IDLE -/

/-- The load write that the ports request, if any. -/
def loadRequest (p : PortsIn) (s : State) : State :=
  if p.ldWe then loadPort p.ldSel p.ldAddr p.ldData s else s

/-- STATUS after the start request, for an idle engine that holds the program of `s` (R228). -/
def statusAfterStart (p : PortsIn) (s : State) : Status :=
  if p.start = true ∧ s.progLen.toNat ≤ s.imem.depth then .running else .idle

section
variable (p : PortsIn) (s : State)

@[simp] theorem loadRequest_regs : (loadRequest p s).regs = s.regs := by unfold loadRequest; split <;> simp
@[simp] theorem loadRequest_pc : (loadRequest p s).pc = s.pc := by unfold loadRequest; split <;> simp
@[simp] theorem loadRequest_status : (loadRequest p s).status = s.status := by unfold loadRequest; split <;> simp
@[simp] theorem loadRequest_fcause : (loadRequest p s).fcause = s.fcause := by unfold loadRequest; split <;> simp
@[simp] theorem loadRequest_ev : (loadRequest p s).ev = s.ev := by unfold loadRequest; split <;> simp

theorem hostRequests_eq :
    hostRequests p s = if p.start then startPort (loadRequest p s) else loadRequest p s := rfl

end

theorem loadRequest_of_no_write {p : PortsIn} (hwe : p.ldWe = false) (s : State) : loadRequest p s = s := by
  simp [loadRequest, hwe]

theorem loadRequest_of_write {p : PortsIn} (hwe : p.ldWe = true) (s : State) :
    loadRequest p s = loadPort p.ldSel p.ldAddr p.ldData s := by
  simp [loadRequest, hwe]

theorem withStatus_self {s : State} {st : Status} (h : s.status = st) : { s with status := st } = s := by
  rw [← h]

/-- A start changes STATUS alone (R228). -/
theorem startRequest_of_idle (p : PortsIn) {s : State} (hs : s.status = .idle) :
    (if p.start then startPort s else s) = { s with status := statusAfterStart p s } := by
  rw [statusAfterStart]
  cases p.start with
  | false => simp [withStatus_self hs]
  | true =>
    obtain ⟨_, hfits, heq⟩ | ⟨_, hlong, heq⟩ | ⟨hne, _⟩ := startPort_cases s
    · simp [heq, hfits]
    · simp [heq, Nat.not_le.2 hlong, withStatus_self hs]
    · exact absurd hs hne

theorem hostRequests_of_idle (p : PortsIn) {s : State} (hs : s.status = .idle) :
    hostRequests p s = { loadRequest p s with status := statusAfterStart p (loadRequest p s) } :=
  startRequest_of_idle p ((loadRequest_status p s).trans hs)

theorem hostRequests_of_not_idle (p : PortsIn) {s : State} (hs : s.status ≠ .idle) : hostRequests p s = s := by
  have hload : loadRequest p s = s := by simp [loadRequest, loadPort, hs]
  simp [hostRequests_eq, hload, startPort, hs]

/-! ### A cycle without reset -/

theorem cycle_of_idle {p : PortsIn} {s : State} (hrst : p.rst = false) (hs : s.status = .idle) :
    cycle p s = .next { loadRequest p s with status := statusAfterStart p (loadRequest p s) } := by
  simp [cycle, hrst, hs, hostRequests_of_idle]

/-- Outside IDLE the load and start ports have no effect: the engine steps if it runs, and keeps its state if it does not. -/
theorem cycle_of_not_idle {p : PortsIn} {s : State} (hrst : p.rst = false) (hs : s.status ≠ .idle) :
    cycle p s = step s := by
  by_cases hrun : s.status = .running
  · simp [cycle, hrst, hrun]
  · simp [cycle, hrst, hrun, hostRequests_of_not_idle p hs, step_of_not_running]

/-- Outside IDLE two inputs without reset do the same. -/
theorem cycle_of_other_ports {p q : PortsIn} {s t : State} (hp : p.rst = false) (hq : q.rst = false)
    (hs : s.status ≠ .idle) (h : cycle p s = .next t) : cycle q s = .next t := by
  rwa [cycle_of_not_idle hq hs, ← cycle_of_not_idle hp hs]

/-! ### The load port (R227) -/

/-- Without a write that the port performs, a cycle keeps the program. -/
theorem cycle_keepsProgram {p : PortsIn} {s t : State} (hrst : p.rst = false) (h : cycle p s = .next t)
    (hno : s.status ≠ .idle ∨ p.ldWe = false) : t.imem = s.imem ∧ t.progLen = s.progLen := by
  by_cases hs : s.status = .idle
  · have hwe : p.ldWe = false := hno.resolve_left (not_not_intro hs)
    rw [cycle_of_idle hrst hs, loadRequest_of_no_write hwe] at h
    cases h
    exact ⟨rfl, rfl⟩
  · rw [cycle_of_not_idle hrst hs] at h
    obtain ⟨himem, hlen, _⟩ := step_keepsProgramAndAppends h
    exact ⟨himem, hlen⟩

/-- A load write in IDLE leaves the program as `loadPort` does: the start of the same cycle does not touch it. -/
theorem cycle_program_of_write {p : PortsIn} {s t : State} (hrst : p.rst = false) (h : cycle p s = .next t)
    (hs : s.status = .idle) (hwe : p.ldWe = true) :
    t.imem = (loadPort p.ldSel p.ldAddr p.ldData s).imem ∧ t.progLen = (loadPort p.ldSel p.ldAddr p.ldData s).progLen := by
  rw [cycle_of_idle hrst hs, loadRequest_of_write hwe] at h
  cases h
  exact ⟨rfl, rfl⟩

/-- Settles O48: outside IDLE a cycle is a step, which no input port reaches; in IDLE the clauses are the cases of
`loadPort`. -/
theorem loadPortWritesOnlyInIdle : Obligations.LoadPortWritesOnlyInIdle := by
  intro p s t hrst h
  refine ⟨fun hs => cycle_of_other_ports hrst hrst hs h, cycle_keepsProgram hrst h, fun hs hwe => ?_⟩
  obtain ⟨himem, hlen⟩ := cycle_program_of_write hrst h hs hwe
  obtain ⟨hne, _⟩ | ⟨_, hsel, heq⟩ | ⟨_, hsel, hlow, heq⟩ | ⟨_, hsel, hhigh, heq⟩ :=
    loadPort_cases p.ldSel p.ldAddr p.ldData s
  · exact absurd hs hne
  · rw [himem, hlen, heq]
    simp [hsel]
  · rw [himem, hlen, heq]
    simp [hsel, hlow, Memory.read_write]
  · rw [himem, hlen, heq]
    simp [hsel, hhigh]

/-! ### The start port (R228) -/

theorem statusAfterStart_eq_running {p : PortsIn} {s : State} (h : p.start = true ∧ s.progLen.toNat ≤ s.imem.depth) :
    statusAfterStart p s = .running := if_pos h

theorem statusAfterStart_eq_idle {p : PortsIn} {s : State} (h : p.start = false ∨ s.imem.depth < s.progLen.toNat) :
    statusAfterStart p s = .idle := by
  apply if_neg
  rintro ⟨hstart, hfits⟩
  obtain hno | hlong := h
  · simp [hno] at hstart
  · omega

/-- Settles O49: in IDLE the cycle is the load write with another STATUS, and outside it a step, which no input port reaches. -/
theorem startIsHonouredOnlyInIdle : Obligations.StartIsHonouredOnlyInIdle := by
  intro p s t hrst h
  refine ⟨fun hs => ?_, fun hs => cycle_of_other_ports hrst hrst hs h⟩
  · rw [cycle_of_idle hrst hs] at h
    cases h
    refine ⟨loadRequest_pc p s, loadRequest_regs p s, loadRequest_fcause p s, loadRequest_ev p s, ?_,
      statusAfterStart_eq_running, statusAfterStart_eq_idle, fun hfresh => ?_⟩
    · rw [cycle_of_idle (by exact hrst) hs, statusAfterStart_eq_idle (.inl rfl)]
      rfl
    · rw [hfresh]
      simp

end Sys2Proof.Machine
end

section
/-! PROOFS. The diagnostic port (spec/70_reset_and_hazards.md R231): the lanes of a cycle are the records of the events by
which the cycle extends the log, and a record is its four fields side by side. -/

namespace Sys2Proof.Machine

/-! ### The events of a cycle -/

theorem cycleEvents_of_step {p : PortsIn} {s t : State} (hrst : p.rst = false) (h : step s = .next t) :
    cycleEvents p s = t.ev.drop s.ev.length := by
  simp [cycleEvents, hrst, h]

/-- Over a cycle without reset the log grows by the events of the cycle, three at most; a load write or a start emits none. -/
theorem cycle_ev {p : PortsIn} {s t : State} (hrst : p.rst = false) (h : cycle p s = .next t) :
    t.ev = s.ev ++ cycleEvents p s ∧ (cycleEvents p s).length ≤ 3 := by
  by_cases hs : s.status = .idle
  · have hstep : step s = .next s := step_of_not_running (by simp [hs])
    have hnone : cycleEvents p s = [] := by simp [cycleEvents_of_step hrst hstep]
    rw [cycle_of_idle hrst hs] at h
    cases h
    simp [hnone]
  · rw [cycle_of_not_idle hrst hs] at h
    obtain ⟨_, _, new, hnew, hlength⟩ := step_keepsProgramAndAppends h
    have hevents : cycleEvents p s = new := by simp [cycleEvents_of_step hrst h, hnew]
    exact ⟨by rw [hevents, hnew], by rwa [hevents]⟩

/-! ### The records -/

/-- An `Out` event has no record, so the records of a log are those of its diagnostic stream. -/
theorem filterMap_diagRecord_diagStream (ev : List Event) :
    (diagStream ev).filterMap diagRecord = ev.filterMap diagRecord := by
  rw [diagStream, List.filterMap_filter]
  congr 1
  funext e
  cases e with
  | out => simp [diagRecord]
  | invalidRegister k => cases k <;> rfl
  | invalidLabel => rfl

/-- The four fields of a record (R231). -/
theorem diagRec_fields (kind : BitVec 2) (site : PcWord) (lbl info : Tag) :
    (kind ++ site ++ lbl ++ info).extractLsb' 160 2 = kind ∧
    (kind ++ site ++ lbl ++ info).extractLsb' 128 32 = site ∧
    (kind ++ site ++ lbl ++ info).extractLsb' 64 64 = lbl ∧
    (kind ++ site ++ lbl ++ info).extractLsb' 0 64 = info :=
  ⟨(extract_append_high (kind ++ site ++ lbl) info 160 2 (by omega)).trans <|
      (extract_append_high (kind ++ site) lbl 96 2 (by omega)).trans <|
      (extract_append_high kind site 32 2 (by omega)).trans (extract_all kind),
    (extract_append_high (kind ++ site ++ lbl) info 128 32 (by omega)).trans <|
      (extract_append_high (kind ++ site) lbl 64 32 (by omega)).trans <|
      (extract_append_low kind site 0 32 (by omega)).trans (extract_all site),
    (extract_append_high (kind ++ site ++ lbl) info 64 64 (by omega)).trans <|
      (extract_append_low (kind ++ site) lbl 0 64 (by omega)).trans (extract_all lbl),
    (extract_append_low (kind ++ site ++ lbl) info 0 64 (by omega)).trans (extract_all info)⟩

/-- Settles O52: the stream grows by the records of the cycle's events, of which there are at most three; the lanes in
use are the indices of a list, so each comes after the ones below it; and the four fields of a record are read back one by one. -/
theorem diagnosticPortCarriesTheReports : Obligations.DiagnosticPortCarriesTheReports := by
  refine ⟨fun p s t hrst h => ?_, fun k site lbl idx => ?_, fun site lbl target => ?_⟩
  · obtain ⟨hev, hlength⟩ := cycle_ev hrst h
    refine ⟨?_, (List.length_filterMap_le _ _).trans hlength, fun k => ?_⟩
    · rw [filterMap_diagRecord_diagStream, filterMap_diagRecord_diagStream, hev, List.filterMap_append]
      rfl
    · simp only [diagValid, decide_eq_true_eq]
      omega
  · obtain ⟨hkind, hsite, hlbl, hinfo⟩ :=
      diagRec_fields (eventKind (.invalidRegister k site lbl idx)) site lbl (idx.signExtend 64)
    refine ⟨_, rfl, ?_, hsite, hlbl, ?_⟩
    · rw [hkind]
      cases k <;> rfl
    · rw [hinfo, BitVec.toInt_signExtend_of_le (by omega)]
  · exact ⟨_, rfl, diagRec_fields 3 site lbl target⟩

end Sys2Proof.Machine
end

section
/-! PROOFS. Decoding and encoding are inverse to each other, and what is no encoding is illegal for one of four reasons
(spec/30_encoding.md sections 3 and 4); the serialised forms of a word (R82). -/

namespace Sys2Proof

open Machine

/-! ### Decode and encode (R78, R84) -/

/-- Settles O1: each constructor's word is in its own row of the opcode table. -/
theorem decodeOfEncodeIsTheInstruction : Obligations.DecodeOfEncodeIsTheInstruction := by
  intro i
  cases i with
  | add l r s1 s2 => exact decode_mkWord_alu .add l r s1 s2
  | sub l r s1 s2 => exact decode_mkWord_alu .sub l r s1 s2
  | mul l r s1 s2 => exact decode_mkWord_alu .mul l r s1 s2
  | div l r s1 s2 => exact decode_mkWord_alu .div l r s1 s2
  | out l s1 => exact decode_mkWord_out l s1
  | lin l r x => exact decode_mkWord_lin l r x
  | bnz l s1 target => exact decode_mkWord_bnz l s1 target

/-- A word of a row is the encoding of what its fields give: the operands the row does not use are zero. -/
theorem encode_rowInstr {o : Opcode} {w : IWord} (h : inRow o w) : encode (rowInstr o w) = w := by
  obtain ⟨hopc, hzero⟩ := h
  have hw : mkWord (lblField w) (opcodeNumber o) (aField w) (bField w) (cField w) = w := by
    rw [← hopc, mkWord_fields]
  cases o with
  | out =>
    obtain ⟨hb, hc⟩ := hzero
    rwa [hb, hc] at hw
  | lin =>
    have hc : cField w = 0 := hzero
    rwa [hc] at hw
  | bnz => rwa [rowInstr, encode, tagHigh_append, tagLow_append]
  | _ => exact hw

/-- Settles O2: a word that decodes is in a row, and the row keeps every bit of it. -/
theorem encodeOfDecodeIsTheWord : Obligations.EncodeOfDecodeIsTheWord := by
  intro w i hd
  have hrow : inRow (opcodeOf i) w := inRow_of_decode hd
  have hi : rowInstr (opcodeOf i) w = i := Decoded.instr.inj ((decode_of_inRow hrow).symm.trans hd)
  rw [← hi, encode_rowInstr hrow]

/-! ### The four illegal cases (R79) -/

/-- The words of each illegal case. -/
def illegalCase : IllegalWord → IWord → Prop
  | .opcodeZero, w => opcField w = 0
  | .opcodeReserved, w => 8 ≤ (opcField w).toNat
  | .outOperandNotZero, w => opcField w = 5 ∧ (bField w ≠ 0 ∨ cField w ≠ 0)
  | .linOperandNotZero, w => opcField w = 6 ∧ cField w ≠ 0

theorem decode_of_illegalCase {why : IllegalWord} {w : IWord} (h : illegalCase why w) : decode w = .illegal why := by
  cases why with
  | opcodeZero =>
    have hnone : opcodeOfNumber (opcField w) = none := opcodeOfNumber_eq_none.2 (.inl h)
    simp only [decode, hnone]
    exact if_pos h
  | opcodeReserved =>
    have hreserved : 8 ≤ (opcField w).toNat := h
    have hne : opcField w ≠ 0 := fun h0 => by simp [h0] at hreserved
    have hnone : opcodeOfNumber (opcField w) = none := opcodeOfNumber_eq_none.2 (.inr h)
    simp only [decode, hnone]
    exact if_neg hne
  | outOperandNotZero =>
    obtain ⟨hopc, hne⟩ := h
    have ho : opcodeOfNumber (opcField w) = some .out := by rw [hopc]; rfl
    simp only [decode, ho]
    exact if_neg (not_and_or.2 hne)
  | linOperandNotZero =>
    obtain ⟨hopc, hne⟩ := h
    have ho : opcodeOfNumber (opcField w) = some .lin := by rw [hopc]; rfl
    simp only [decode, ho]
    exact if_neg hne

/-- Every word is in a row of the opcode table or in an illegal case. -/
theorem inRow_or_illegalCase (w : IWord) : (∃ o, inRow o w) ∨ ∃ why, illegalCase why w := by
  cases ho : opcodeOfNumber (opcField w) with
  | none =>
    obtain hzero | hreserved := opcodeOfNumber_eq_none.1 ho
    · exact .inr ⟨.opcodeZero, hzero⟩
    · exact .inr ⟨.opcodeReserved, hreserved⟩
  | some o =>
    have hopc := opcodeNumber_of_opcodeOfNumber ho
    by_cases hzero : unusedZero o w
    · exact .inl ⟨o, hopc, hzero⟩
    · cases o with
      | out => exact .inr ⟨.outOperandNotZero, hopc, not_and_or.1 hzero⟩
      | lin => exact .inr ⟨.linOperandNotZero, hopc, hzero⟩
      | _ => exact absurd trivial hzero

theorem decode_eq_illegal_iff (w : IWord) (why : IllegalWord) : decode w = .illegal why ↔ illegalCase why w := by
  refine ⟨fun h => ?_, decode_of_illegalCase⟩
  obtain ⟨o, hrow⟩ | ⟨why', hcase⟩ := inRow_or_illegalCase w
  · rw [decode_of_inRow hrow] at h
    cases h
  · obtain rfl : why' = why := Decoded.illegal.inj ((decode_of_illegalCase hcase).symm.trans h)
    exact hcase

/-- Settles O3: the rows and the four cases together are all words, and each case has its own name. -/
theorem illegalWordsAreExactlyTheFourCases : Obligations.IllegalWordsAreExactlyTheFourCases := by
  intro w
  exact ⟨decode_eq_illegal_iff w .opcodeZero, decode_eq_illegal_iff w .opcodeReserved,
    decode_eq_illegal_iff w .outOperandNotZero, decode_eq_illegal_iff w .linOperandNotZero⟩

/-- Settles O5, by evaluating the decoder on the seven words. -/
theorem listedWordsDecode : Obligations.ListedWordsDecode := by
  unfold Obligations.ListedWordsDecode
  decide

/-! ### The serialised forms (R82) -/

theorem bytesToNat_concat (bs : List Byte) (b : Byte) : bytesToNat (bs ++ [b]) = bytesToNat bs * 256 + b.toNat := by
  induction bs with
  | nil => simp [bytesToNat]
  | cons c cs ih =>
    simp only [List.cons_append, bytesToNat, ih, List.length_append, List.length_singleton, pow_succ]
    ring

/-- The first `n` bytes of a word spell its most significant `8 n` bits. -/
theorem bytesToNat_leading (w : IWord) {n : Nat} (hn : n ≤ 24) :
    bytesToNat ((List.range n).map fun k => w.extractLsb' (184 - 8 * k) 8) = w.toNat / 2 ^ (192 - 8 * n) := by
  induction n with
  | zero => exact (Nat.div_eq_of_lt w.isLt).symm
  | succ n ih =>
    have hshift : 192 - 8 * n = (184 - 8 * n) + 8 := by omega
    have hnext : 192 - 8 * (n + 1) = 184 - 8 * n := by omega
    rw [List.range_succ, List.map_append, List.map_singleton, bytesToNat_concat, ih (by omega), hshift, hnext, pow_add,
      ← Nat.div_div_eq_div_mul, BitVec.extractLsb'_toNat, Nat.shiftRight_eq_div_pow]
    exact Nat.div_add_mod' _ _

theorem toBytes_length (w : IWord) : (toBytes w).length = 24 := by simp [toBytes]

theorem ofBytes_toBytes (w : IWord) : ofBytes (toBytes w) = some w := by
  have hspell : bytesToNat (toBytes w) = w.toNat :=
    (bytesToNat_leading w (le_refl 24)).trans (Nat.div_one _)
  rw [ofBytes, if_pos (toBytes_length w), hspell, BitVec.ofNat_toNat, BitVec.setWidth_eq]

theorem ofWords_toWords (w : IWord) : ofWords (toWords w) = some w := by
  have hlabel : w.extractLsb' 160 32 ++ w.extractLsb' 128 32 = lblField w := extract_append_extract w 128 32 32
  rw [toWords, ofWords, hlabel, mkWord_fields]

/-- Settles O6: the bytes spell the word's number from the most significant bit on, and the six words are its fields. -/
theorem serialisedWordReadsBack : Obligations.SerialisedWordReadsBack := by
  intro w
  exact ⟨toBytes_length w, fun k hk => by simp [toBytes, hk], ofBytes_toBytes w, ofWords_toWords w⟩

end Sys2Proof
end

section
/-! PROOFS. A step as a function of what it reads (spec/10_state.md R42): the values it writes and the events it appends are
computed once, and a step is that effect applied to the state. What a step appends to the log (spec/60_exceptions.md R190). -/

namespace Sys2Proof.Machine

/-! ### The effect of an instruction and of a step -/

/-- What a step writes: the registers, `pc`, STATUS, FCAUSE, and the events it appends to the log. -/
structure Effect where
  regs : List Word
  pc : PcWord
  status : Status
  fcause : FCause
  new : List Event

/-- The state that an effect leaves: the program is as before, and the log is only appended to. -/
def Effect.apply (e : Effect) (s : State) : State :=
  { s with regs := e.regs, pc := e.pc, status := e.status, fcause := e.fcause, ev := s.ev ++ e.new }

/-- The run goes on: STATUS and FCAUSE stay. -/
def continueWith (regs : List Word) (pc : PcWord) (new : List Event) (s : State) : Effect :=
  { regs := regs, pc := pc, status := s.status, fcause := s.fcause, new := new }

/-- The run stops: the registers and `pc` stay. -/
def stopWith (status : Status) (fcause : FCause) (new : List Event) (s : State) : Effect :=
  { regs := s.regs, pc := s.pc, status := status, fcause := fcause, new := new }

/-- The effect of an ALU instruction (R130, R135). -/
def aluEffect (op : AluOp) (r s1 s2 : Word) (s : State) : Effect :=
  match alu op (readValue s1 s) (readValue s2 s) with
  | .result v => continueWith (writtenRegs r v s) (s.pc + 1) (readLog s1 s ++ readLog s2 s ++ writeLog r s) s
  | .divByZero => stopWith .faulted .divisionByZero (readLog s1 s ++ readLog s2 s) s

/-- The effect of `bnz` (R160 to R163). -/
def bnzEffect (s1 : Word) (target : Tag) (s : State) : Effect :=
  match resolveBranch (readValue s1 s) target s with
  | .notTaken => continueWith s.regs (s.pc + 1) (readLog s1 s) s
  | .taken k => continueWith s.regs (BitVec.ofNat 32 k) [] s
  | .unknownLabel => continueWith s.regs (s.pc + 1) [.invalidLabel s.pc (labelAtPc s) target] s

/-- The effect of an instruction. -/
def instrEffect : Instr → State → Effect
  | .add _ r s1 s2, s => aluEffect .add r s1 s2 s
  | .sub _ r s1 s2, s => aluEffect .sub r s1 s2 s
  | .mul _ r s1 s2, s => aluEffect .mul r s1 s2 s
  | .div _ r s1 s2, s => aluEffect .div r s1 s2 s
  | .out _ s1, s => continueWith s.regs (s.pc + 1) (readLog s1 s ++ [.out (readValue s1 s)]) s
  | .lin _ r x, s => continueWith (writtenRegs r x s) (s.pc + 1) (writeLog r s) s
  | .bnz _ s1 target, s => bnzEffect s1 target s

/-- The effect of a step (R42). -/
def stepEffect (s : State) : Effect :=
  match fetch s with
  | .notEnabled => stopWith s.status s.fcause [] s
  | .endOfProgram => stopWith .halted s.fcause [] s
  | .illegal => stopWith .faulted .illegalInstruction [] s
  | .instr i => instrEffect i s

/-! ### An instruction is its effect -/

theorem aluEffect_of_result {op : AluOp} {r s1 s2 v : Word} {s : State}
    (h : alu op (readValue s1 s) (readValue s2 s) = .result v) :
    aluEffect op r s1 s2 s =
      continueWith (writtenRegs r v s) (s.pc + 1) (readLog s1 s ++ readLog s2 s ++ writeLog r s) s := by
  simp [aluEffect, h]

theorem aluEffect_of_divByZero {op : AluOp} {r s1 s2 : Word} {s : State}
    (h : alu op (readValue s1 s) (readValue s2 s) = .divByZero) :
    aluEffect op r s1 s2 s = stopWith .faulted .divisionByZero (readLog s1 s ++ readLog s2 s) s := by
  simp [aluEffect, h]

theorem instrEffect_aluTerm (op : AluOp) (l : Tag) (r s1 s2 : Word) (s : State) :
    instrEffect (aluTerm op l r s1 s2) s = aluEffect op r s1 s2 s := by
  cases op <;> rfl

theorem exec_aluTerm_eq (op : AluOp) (l : Tag) (r s1 s2 : Word) (s : State) :
    exec (aluTerm op l r s1 s2) s = .next ((aluEffect op r s1 s2 s).apply s) := by
  cases h : alu op (readValue s1 s) (readValue s2 s) with
  | result v => simp [exec_aluTerm_of_result l h, aluEffect_of_result h, continueWith, Effect.apply]
  | divByZero => simp [exec_aluTerm_of_divByZero l h, aluEffect_of_divByZero h, stopWith, Effect.apply]

/-- The outcomes of `bnz`: the value read is 0, the lookup hits, or it misses. -/
theorem bnzEffect_cases (s1 : Word) (target : Tag) (s : State) :
    (readValue s1 s = 0 ∧ bnzEffect s1 target s = continueWith s.regs (s.pc + 1) (readLog s1 s) s) ∨
    (∃ k, readValue s1 s ≠ 0 ∧ labelLookup target s = some k ∧
      bnzEffect s1 target s = continueWith s.regs (BitVec.ofNat 32 k) [] s) ∨
    (readValue s1 s ≠ 0 ∧ labelLookup target s = none ∧
      bnzEffect s1 target s = continueWith s.regs (s.pc + 1) [.invalidLabel s.pc (labelAtPc s) target] s) := by
  by_cases hv : readValue s1 s = 0
  · exact .inl ⟨hv, by simp [bnzEffect, resolveBranch, hv, isNonZero]⟩
  · have hnz := (isNonZero_iff _).2 hv
    cases hk : labelLookup target s with
    | some k => exact .inr (.inl ⟨k, hv, rfl, by simp [bnzEffect, resolveBranch, hnz, hk]⟩)
    | none => exact .inr (.inr ⟨hv, rfl, by simp [bnzEffect, resolveBranch, hnz, hk]⟩)

theorem exec_bnz_eq (l : Tag) (s1 : Word) (target : Tag) (s : State) :
    exec (.bnz l s1 target) s = .next ((bnzEffect s1 target s).apply s) := by
  obtain ⟨hv, he⟩ | ⟨k, hv, hk, he⟩ | ⟨hv, hk, he⟩ := bnzEffect_cases s1 target s <;> rw [he]
  · rw [exec_bnz_of_zero l target hv]
    rfl
  · simp [exec_bnz_of_hit l hv hk, branchTo, continueWith, Effect.apply]
  · rw [exec_bnz_of_miss l hv hk]
    rfl

theorem exec_eq_effect (i : Instr) (s : State) : exec i s = .next ((instrEffect i s).apply s) := by
  cases i with
  | add l r s1 s2 => exact exec_aluTerm_eq .add l r s1 s2 s
  | sub l r s1 s2 => exact exec_aluTerm_eq .sub l r s1 s2 s
  | mul l r s1 s2 => exact exec_aluTerm_eq .mul l r s1 s2 s
  | div l r s1 s2 => exact exec_aluTerm_eq .div l r s1 s2 s
  | out l s1 => simp [exec_out, instrEffect, continueWith, Effect.apply, emit, advance]
  | lin l r x =>
    rw [exec_lin, regWrite_eq]
    rfl
  | bnz l s1 target => exact exec_bnz_eq l s1 target s

theorem step_eq_effect (s : State) : step s = .next ((stepEffect s).apply s) := by
  unfold step stepEffect
  cases fetch s with
  | notEnabled => simp [stopWith, Effect.apply]
  | endOfProgram => simp [stopWith, Effect.apply, halt]
  | illegal => simp [stopWith, Effect.apply, raise, causeOf]
  | instr i => exact exec_eq_effect i s

theorem exec_next_iff {i : Instr} {s t : State} : exec i s = .next t ↔ t = (instrEffect i s).apply s := by
  rw [exec_eq_effect, Host.Outcome.next.injEq, eq_comm]

theorem step_next_iff {s t : State} : step s = .next t ↔ t = (stepEffect s).apply s := by
  rw [step_eq_effect, Host.Outcome.next.injEq, eq_comm]

/-- Settles O34: a step is its effect, which is defined in every state. -/
theorem everyStepAnswersANextState : Obligations.EveryStepAnswersANextState :=
  fun s => ⟨_, step_eq_effect s⟩

/-! ### Reports and outputs -/

/-- Events for the diagnostic channel alone, `n` at most. -/
def IsReports (n : Nat) (new : List Event) : Prop := diagStream new = new ∧ outStream new = [] ∧ new.length ≤ n

theorem isReports_readLog (i : Word) (s : State) : IsReports 1 (readLog i s) :=
  ⟨diagStream_readLog i s, outStream_readLog i s, readLog_length i s⟩

theorem isReports_writeLog (r : Word) (s : State) : IsReports 1 (writeLog r s) :=
  ⟨diagStream_writeLog r s, outStream_writeLog r s, writeLog_length r s⟩

theorem IsReports.append {m n : Nat} {a b : List Event} (ha : IsReports m a) (hb : IsReports n b) :
    IsReports (m + n) (a ++ b) := by
  obtain ⟨hda, hoa, hla⟩ := ha
  obtain ⟨hdb, hob, hlb⟩ := hb
  refine ⟨by rw [diagStream_append, hda, hdb], by rw [outStream_append, hoa, hob, List.append_nil], ?_⟩
  rw [List.length_append]
  omega

theorem IsReports.mono {m n : Nat} {new : List Event} (h : IsReports m new) (hmn : m ≤ n) : IsReports n new := by
  obtain ⟨hdiag, hout, hlen⟩ := h
  exact ⟨hdiag, hout, hlen.trans hmn⟩

theorem aluEffect_reports (op : AluOp) (r s1 s2 : Word) (s : State) : IsReports 3 (aluEffect op r s1 s2 s).new := by
  have hreads : IsReports 2 (readLog s1 s ++ readLog s2 s) := (isReports_readLog s1 s).append (isReports_readLog s2 s)
  unfold aluEffect
  split
  · exact hreads.append (isReports_writeLog r s)
  · exact hreads.mono (by omega)

/-- `bnz` writes `pc` and appends one report at most. -/
theorem bnzEffect_eq_continueWith (s1 : Word) (target : Tag) (s : State) :
    ∃ pc reports, bnzEffect s1 target s = continueWith s.regs pc reports s ∧ IsReports 1 reports := by
  obtain ⟨_, he⟩ | ⟨_, _, _, he⟩ | ⟨_, _, he⟩ := bnzEffect_cases s1 target s
  · exact ⟨_, _, he, isReports_readLog s1 s⟩
  · exact ⟨_, _, he, rfl, rfl, Nat.zero_le 1⟩
  · exact ⟨_, _, he, rfl, rfl, le_refl 1⟩

/-- At most three reports, then at most one `Out` event. -/
def ReportsThenOutput (new : List Event) : Prop :=
  (diagStream new).length ≤ 3 ∧ (outStream new).length ≤ 1 ∧ new = diagStream new ++ (outStream new).map .out

theorem IsReports.reportsThenOutput {new : List Event} (h : IsReports 3 new) : ReportsThenOutput new := by
  obtain ⟨hdiag, hout, hlen⟩ := h
  simp [ReportsThenOutput, hdiag, hout, hlen]

theorem IsReports.append_out {reports : List Event} (h : IsReports 3 reports) (v : Word) :
    ReportsThenOutput (reports ++ [.out v]) := by
  obtain ⟨hdiag, hout, hlen⟩ := h
  have hd : diagStream [.out v] = [] := rfl
  have ho : outStream [.out v] = [v] := rfl
  simp [ReportsThenOutput, hdiag, hout, hd, ho, hlen]

theorem instrEffect_reportsThenOutput (i : Instr) (s : State) : ReportsThenOutput (instrEffect i s).new := by
  cases i with
  | add l r s1 s2 => exact (aluEffect_reports .add r s1 s2 s).reportsThenOutput
  | sub l r s1 s2 => exact (aluEffect_reports .sub r s1 s2 s).reportsThenOutput
  | mul l r s1 s2 => exact (aluEffect_reports .mul r s1 s2 s).reportsThenOutput
  | div l r s1 s2 => exact (aluEffect_reports .div r s1 s2 s).reportsThenOutput
  | out l s1 => exact ((isReports_readLog s1 s).mono (by omega)).append_out (readValue s1 s)
  | lin l r x => exact ((isReports_writeLog r s).mono (by omega)).reportsThenOutput
  | bnz l s1 target =>
    obtain ⟨pc, reports, he, hreports⟩ := bnzEffect_eq_continueWith s1 target s
    rw [instrEffect, he]
    exact (hreports.mono (by omega)).reportsThenOutput

theorem stepEffect_reportsThenOutput (s : State) : ReportsThenOutput (stepEffect s).new := by
  have hnone : ReportsThenOutput [] := IsReports.reportsThenOutput ⟨rfl, rfl, Nat.zero_le 3⟩
  unfold stepEffect
  split
  next => exact hnone
  next => exact hnone
  next => exact hnone
  next i _ => exact instrEffect_reportsThenOutput i s

/-- Settles O39. -/
theorem stepAppendsAtMostThreeReportsThenOneOutput : Obligations.StepAppendsAtMostThreeReportsThenOneOutput := by
  intro s t h
  obtain rfl := step_next_iff.1 h
  exact ⟨_, rfl, stepEffect_reportsThenOutput s⟩

end Sys2Proof.Machine
end

section
/-! PROOFS. What a step and what each instruction leaves unchanged (spec/10_state.md R41 (5), spec/41_arithmetic.md,
spec/40_load_immediate.md, spec/42_output.md, spec/43_branch.md), and `lin` followed by `out`. -/

namespace Sys2Proof.Machine

/-! ### What a step leaves unchanged -/

theorem Effect.ev_extends (e : Effect) (s : State) : s.ev <+: (e.apply s).ev := ⟨e.new, rfl⟩

theorem aluEffect_regs_length (op : AluOp) (r s1 s2 : Word) (s : State) :
    (aluEffect op r s1 s2 s).regs.length = s.regs.length := by
  unfold aluEffect
  split
  · exact writtenRegs_length ..
  · rfl

theorem instrEffect_regs_length (i : Instr) (s : State) : (instrEffect i s).regs.length = s.regs.length := by
  cases i with
  | add => exact aluEffect_regs_length ..
  | sub => exact aluEffect_regs_length ..
  | mul => exact aluEffect_regs_length ..
  | div => exact aluEffect_regs_length ..
  | out => rfl
  | lin => exact writtenRegs_length ..
  | bnz l s1 target =>
    obtain ⟨pc, reports, he, _⟩ := bnzEffect_eq_continueWith s1 target s
    rw [instrEffect, he]
    rfl

theorem stepEffect_regs_length (s : State) : (stepEffect s).regs.length = s.regs.length := by
  unfold stepEffect
  split
  next => rfl
  next => rfl
  next => rfl
  next i _ => exact instrEffect_regs_length i s

/-- Settles O38: an effect has no part for the program, and keeps the number of registers. -/
theorem noStepChangesTheProgram : Obligations.NoStepChangesTheProgram := by
  intro s t h
  obtain rfl := step_next_iff.1 h
  exact ⟨rfl, rfl, stepEffect_regs_length s⟩

theorem writtenRegs_getD_other {r : Word} {s : State} {k : Nat} (v : Word) (h : ¬ (inFile r s ∧ k = r.toInt.toNat)) :
    (writtenRegs r v s).getD k 0 = s.regs.getD k 0 := by
  by_cases hr : inFile r s
  · have hk : r.toInt.toNat ≠ k := fun heq => h ⟨hr, heq.symm⟩
    simp [writtenRegs_in hr, List.getD, hk]
  · rw [writtenRegs_out hr]

/-- Settles O23, by the two outcomes of an ALU instruction; only the `div_by_zero` signal of a `div` changes STATUS and
FCAUSE. -/
theorem arithmeticFrame : Obligations.ArithmeticFrame := by
  intro l r s1 s2 i s t hi h
  obtain ⟨op, hop, rfl⟩ : ∃ op, (op = .div → i = .div l r s1 s2) ∧ i = aluTerm op l r s1 s2 := by
    obtain rfl | rfl | rfl | rfl := hi
    · exact ⟨.add, nofun, rfl⟩
    · exact ⟨.sub, nofun, rfl⟩
    · exact ⟨.mul, nofun, rfl⟩
    · exact ⟨.div, fun _ => rfl, rfl⟩
  obtain rfl := exec_next_iff.1 h
  rw [instrEffect_aluTerm]
  cases halu : alu op (readValue s1 s) (readValue s2 s) with
  | result v =>
    rw [aluEffect_of_result halu]
    exact ⟨fun k hk => writtenRegs_getD_other v hk, writtenRegs_length r v s, fun _ => rfl, rfl, rfl,
      fun _ => ⟨rfl, rfl⟩, Effect.ev_extends .., by simp [Effect.apply, continueWith]⟩
  | divByZero =>
    obtain ⟨hdiv, hzero⟩ := (alu_divByZero_iff op _ _).1 halu
    rw [aluEffect_of_divByZero halu]
    refine ⟨fun _ _ => rfl, rfl, fun _ => rfl, rfl, rfl, fun hno => ?_, Effect.ev_extends ..,
      by simp [Effect.apply, stopWith]⟩
    obtain hne | hne := hno
    · exact absurd (hop hdiv) hne
    · exact absurd ((divisorIsZero_iff _).1 hzero) hne

/-- Settles O25. -/
theorem linFrame : Obligations.LinFrame := by
  intro l r x s t h
  obtain rfl := exec_next_iff.1 h
  exact ⟨fun k hk => writtenRegs_getD_other x hk, writtenRegs_length r x s, fun _ => rfl, rfl, rfl, rfl, rfl,
    Effect.ev_extends .., by simp [Effect.apply, instrEffect, continueWith]⟩

/-- Settles O28. -/
theorem outAndBnzFrame : Obligations.OutAndBnzFrame := by
  intro l s1 target i s t hi h
  obtain rfl := exec_next_iff.1 h
  obtain rfl | rfl := hi
  · exact ⟨rfl, fun _ => rfl, rfl, rfl, rfl, rfl, Effect.ev_extends .., nofun⟩
  · obtain ⟨pc, reports, he, _, hout, _⟩ := bnzEffect_eq_continueWith s1 target s
    rw [instrEffect, he]
    exact ⟨rfl, fun _ => rfl, rfl, rfl, rfl, rfl, Effect.ev_extends ..,
      fun _ => by simp [Effect.apply, continueWith, hout]⟩

/-! ### `lin`, then `out` of the same register -/

theorem regWrite_ev (r v : Word) (s : State) : (regWrite r v s).ev = s.ev ++ writeLog r s := by rw [regWrite_eq]

theorem inFile_advance_regWrite (i r v : Word) (s : State) : inFile i (advance (regWrite r v s)) ↔ inFile i s := by
  rw [← regInRange_iff, ← regInRange_iff, advance_regInRange, regInRange, regInRange, ← nregs, regWrite_nregs, nregs]

theorem readValue_advance_regWrite_same {r : Word} {s : State} (v : Word) (h : inFile r s) :
    readValue r (advance (regWrite r v s)) = v := by
  rw [readValue_in ((inFile_advance_regWrite ..).2 h), advance_rawReg, rawReg_regWrite_same (regInRange_iff.2 h)]

/-- Settles O29: in range the `out` reads what the `lin` wrote; out of range both accesses are reported and the read gives 0. -/
theorem linThenOutEmitsTheImmediate : Obligations.LinThenOutEmitsTheImmediate := by
  intro l l' r x s t u hlin hout
  rw [exec_lin] at hlin
  rw [exec_out] at hout
  cases hlin
  cases hout
  refine ⟨fun hin => ?_, fun hno => ?_⟩
  · have hin' := (inFile_advance_regWrite r r x s).2 hin
    simp [readLog_in hin', readValue_advance_regWrite_same x hin, regWrite_ev, writeLog_in hin]
  · have hno' := mt (inFile_advance_regWrite r r x s).1 hno
    simp [readLog_out hno', readValue_out hno', regWrite_ev, writeLog_out hno]

end Sys2Proof.Machine
end

section
/-! PROOFS. What a step does not read: the log and the words at and above PROGLEN (spec/10_state.md sections 5 and 7). -/

namespace Sys2Proof.Machine

/-- Two states that differ at most in the log and in the words at and above PROGLEN. -/
structure SameView (s s' : State) : Prop where
  regs : s'.regs = s.regs
  pc : s'.pc = s.pc
  progLen : s'.progLen = s.progLen
  status : s'.status = s.status
  fcause : s'.fcause = s.fcause
  program : ∀ i < s.progLen.toNat, s'.imem.read i = s.imem.read i

namespace SameView

variable {s s' : State}

theorem inFile_iff (h : SameView s s') (i : Word) : inFile i s' ↔ inFile i s := by rw [inFile, inFile, h.regs]

theorem readValue_eq (h : SameView s s') (i : Word) : readValue i s' = readValue i s := by
  simp only [readValue, h.inFile_iff, h.regs]

theorem writtenRegs_eq (h : SameView s s') (r v : Word) : writtenRegs r v s' = writtenRegs r v s := by
  simp only [writtenRegs, h.inFile_iff, h.regs]

theorem labelAtPc_eq (h : SameView s s') (hpc : s.pc.toNat < s.progLen.toNat) : labelAtPc s' = labelAtPc s := by
  rw [labelAtPc, labelAtPc, h.pc, h.program _ hpc]

theorem readLog_eq (h : SameView s s') (hpc : s.pc.toNat < s.progLen.toNat) (i : Word) : readLog i s' = readLog i s := by
  simp only [readLog, h.inFile_iff, h.pc, h.labelAtPc_eq hpc]

theorem writeLog_eq (h : SameView s s') (hpc : s.pc.toNat < s.progLen.toNat) (r : Word) :
    writeLog r s' = writeLog r s := by
  simp only [writeLog, h.inFile_iff, h.pc, h.labelAtPc_eq hpc]

theorem labelAt_eq (h : SameView s s') {i : Nat} (hi : i < s.progLen.toNat) : labelAt i s' = labelAt i s := by
  rw [labelAt, labelAt, h.program i hi]

theorem labelLookup_eq (h : SameView s s') (t : Tag) : labelLookup t s' = labelLookup t s := by
  cases hk : labelLookup t s with
  | none =>
    rw [labelLookup_eq_none] at hk ⊢
    rw [h.progLen]
    intro k hlt
    rw [h.labelAt_eq hlt]
    exact hk k hlt
  | some k =>
    rw [labelLookup_eq_some] at hk ⊢
    obtain ⟨htag, hlt, hlowest⟩ := hk
    rw [h.progLen, h.labelAt_eq hlt]
    refine ⟨htag, hlt, fun j hj => ?_⟩
    rw [h.labelAt_eq (hj.trans hlt)]
    exact hlowest j hj

theorem continueWith_eq (h : SameView s s') (regs : List Word) (pc : PcWord) (new : List Event) :
    continueWith regs pc new s' = continueWith regs pc new s := by
  rw [continueWith, continueWith, h.status, h.fcause]

theorem stopWith_eq (h : SameView s s') (status : Status) (fcause : FCause) (new : List Event) :
    stopWith status fcause new s' = stopWith status fcause new s := by
  rw [stopWith, stopWith, h.regs, h.pc]

theorem aluEffect_eq (h : SameView s s') (hpc : s.pc.toNat < s.progLen.toNat) (op : AluOp) (r s1 s2 : Word) :
    aluEffect op r s1 s2 s' = aluEffect op r s1 s2 s := by
  simp only [aluEffect, h.readValue_eq, h.writtenRegs_eq, h.readLog_eq hpc, h.writeLog_eq hpc, h.pc, h.continueWith_eq,
    h.stopWith_eq]

theorem bnzEffect_eq (h : SameView s s') (hpc : s.pc.toNat < s.progLen.toNat) (s1 : Word) (target : Tag) :
    bnzEffect s1 target s' = bnzEffect s1 target s := by
  simp only [bnzEffect, resolveBranch, h.readValue_eq, h.readLog_eq hpc, h.labelLookup_eq, h.labelAtPc_eq hpc, h.regs,
    h.pc, h.continueWith_eq]

theorem instrEffect_eq (h : SameView s s') (hpc : s.pc.toNat < s.progLen.toNat) (i : Instr) :
    instrEffect i s' = instrEffect i s := by
  cases i with
  | add l r s1 s2 => exact h.aluEffect_eq hpc .add r s1 s2
  | sub l r s1 s2 => exact h.aluEffect_eq hpc .sub r s1 s2
  | mul l r s1 s2 => exact h.aluEffect_eq hpc .mul r s1 s2
  | div l r s1 s2 => exact h.aluEffect_eq hpc .div r s1 s2
  | out l s1 =>
    simp only [instrEffect, h.readValue_eq, h.readLog_eq hpc, h.regs, h.pc, h.continueWith_eq]
  | lin l r x =>
    simp only [instrEffect, h.writtenRegs_eq, h.writeLog_eq hpc, h.pc, h.continueWith_eq]
  | bnz l s1 target => exact h.bnzEffect_eq hpc s1 target

theorem fetch_eq (h : SameView s s') : fetch s' = fetch s := by
  rw [fetch, fetch, h.status, h.pc, h.progLen]
  by_cases hpc : s.pc.toNat < s.progLen.toNat
  · rw [ifetch, ifetch, h.program _ hpc]
  · rw [if_neg hpc, if_neg hpc]

end SameView

theorem pc_lt_of_fetch_instr {s : State} {i : Instr} (h : fetch s = .instr i) : s.pc.toNat < s.progLen.toNat := by
  unfold fetch at h
  split at h
  · split at h
    · assumption
    · cases h
  · cases h

/-- The effect of a step depends on neither the log nor the words at and above PROGLEN. -/
theorem SameView.stepEffect_eq {s s' : State} (h : SameView s s') : stepEffect s' = stepEffect s := by
  unfold stepEffect
  rw [h.fetch_eq]
  cases hf : fetch s with
  | notEnabled =>
    simp only [h.stopWith_eq, h.status, h.fcause]
  | endOfProgram =>
    simp only [h.stopWith_eq, h.fcause]
  | illegal => exact h.stopWith_eq ..
  | instr i => exact h.instrEffect_eq (pc_lt_of_fetch_instr hf) i

/-- Settles O43: the effect of a step does not depend on the log. -/
theorem noInstructionReadsTheEventLog : Obligations.NoInstructionReadsTheEventLog := by
  intro s t log h
  obtain rfl := step_next_iff.1 h
  have hview : SameView s { s with ev := log } := ⟨rfl, rfl, rfl, rfl, rfl, fun _ _ => rfl⟩
  refine ⟨_, rfl, ?_⟩
  rw [step_eq_effect, hview.stepEffect_eq]
  rfl

/-- Settles O44: the effect of a step does not depend on the words at and above PROGLEN. -/
theorem wordsAtAndAboveProglenAreNeverRead : Obligations.WordsAtAndAboveProglenAreNeverRead := by
  intro s t m hm h
  obtain rfl := step_next_iff.1 h
  have hview : SameView s { s with imem := m } := ⟨rfl, rfl, rfl, rfl, rfl, hm⟩
  rw [step_eq_effect, hview.stepEffect_eq]
  rfl

end Sys2Proof.Machine
end

section
/-! PROOFS. The control of a run (spec/10_state.md R42, spec/43_branch.md, spec/60_exceptions.md): where an instruction takes
`pc`, STATUS and FCAUSE, and so how a run ends, what transfers control, and that a well-formed image has no illegal word. -/

namespace Sys2Proof.Machine

/-! ### The step, by the word at `pc` -/

/-- Settles O30. -/
theorem stepRunsTheDecodedInstruction : Obligations.StepRunsTheDecodedInstruction :=
  fun _ _ hs hpc hd => step_of_instr hs hpc hd

theorem core_run_succ {s t : State} (h : step s = .next t) (k : Nat) : core.run (k + 1) s = core.run k t := by
  have hstep : core.step s = .next t := h
  simp only [Host.Core.run, hstep]

/-- Settles O32, by induction on the number of steps. -/
theorem engineNotRunningKeepsItsState : Obligations.EngineNotRunningKeepsItsState := by
  intro s k hs
  induction k with
  | zero => rfl
  | succ k ih => rw [core_run_succ (step_of_not_running hs), ih]

theorem decode_of_decodeTableWord {nbits w : Nat} {i : Instr} (h : decodeTableWord nbits w = some i) :
    decode (tableWord nbits w) = .instr i := by
  unfold decodeTableWord at h
  split at h
  next heq =>
    cases h
    exact heq
  next => cases h

theorem placeWord_pc_lt (iw : IWord) (s : State) : (placeWord iw s).pc.toNat < (placeWord iw s).progLen.toNat := by
  simp only [placeWord]
  generalize hpc : (if s.pc.toNat + 1 < 2 ^ 32 then s.pc else 0) = pc
  have hfits : pc.toNat + 1 < 2 ^ 32 := by
    subst hpc
    split
    · assumption
    · decide
  split
  · assumption
  · bv_omega

theorem ifetch_placeWord (iw : IWord) (s : State) : ifetch (placeWord iw s).pc (placeWord iw s) = iw :=
  Memory.read_write_same ..

/-- Settles O33: the placed word is inside the program, and it is the word at `pc`. -/
theorem stepRunsThePlacedWord : Obligations.StepRunsThePlacedWord := by
  intro s nbits w i h
  refine step_of_instr rfl (placeWord_pc_lt _ s) ?_
  rw [State.withFetchWord, ifetch_placeWord, decode_of_decodeTableWord h]

/-! ### Where an instruction takes the engine -/

/-- The instruction is a `div` whose divisor reads 0 (R135). -/
def DividesByZero (i : Instr) (s : State) : Prop := ∃ l r s1 s2, i = .div l r s1 s2 ∧ readValue s2 s = 0

/-- What an instruction does to `pc`, STATUS and FCAUSE: it goes on to the next index, it branches to an index that carries
its label, or it is a `div` by 0 and faults. -/
inductive Control (i : Instr) (s t : State) : Prop where
  | next (hpc : t.pc = s.pc + 1) (hstatus : t.status = s.status) (hcause : t.fcause = s.fcause)
      (hdiv : ¬ DividesByZero i s)
  | branch (l : Tag) (s1 : Word) (target : Tag) (k : Nat) (hi : i = .bnz l s1 target) (hv : readValue s1 s ≠ 0)
      (hk : labelLookup target s = some k) (hpc : t.pc = BitVec.ofNat 32 k) (hstatus : t.status = s.status)
      (hcause : t.fcause = s.fcause)
  | fault (hdiv : DividesByZero i s) (hpc : t.pc = s.pc) (hstatus : t.status = .faulted)
      (hcause : t.fcause = .divisionByZero)

theorem control_aluTerm (op : AluOp) (l : Tag) (r s1 s2 : Word) (s : State) :
    Control (aluTerm op l r s1 s2) s ((aluEffect op r s1 s2 s).apply s) := by
  cases halu : alu op (readValue s1 s) (readValue s2 s) with
  | result v =>
    rw [aluEffect_of_result halu]
    refine .next rfl rfl rfl ?_
    rintro ⟨l', r', s1', s2', hi, hzero⟩
    cases op with
    | div =>
      cases hi
      rw [hzero, alu_div_zero] at halu
      cases halu
    | _ => cases hi
  | divByZero =>
    obtain ⟨rfl, hzero⟩ := (alu_divByZero_iff op _ _).1 halu
    rw [aluEffect_of_divByZero halu]
    exact .fault ⟨l, r, s1, s2, rfl, (divisorIsZero_iff _).1 hzero⟩ rfl rfl rfl

theorem control_bnz (l : Tag) (s1 : Word) (target : Tag) (s : State) :
    Control (.bnz l s1 target) s ((bnzEffect s1 target s).apply s) := by
  obtain ⟨_, he⟩ | ⟨k, hv, hk, he⟩ | ⟨_, _, he⟩ := bnzEffect_cases s1 target s <;> rw [he]
  · exact .next rfl rfl rfl nofun
  · exact .branch l s1 target k rfl hv hk rfl rfl rfl
  · exact .next rfl rfl rfl nofun

theorem exec_control {i : Instr} {s t : State} (h : exec i s = .next t) : Control i s t := by
  obtain rfl := exec_next_iff.1 h
  cases i with
  | add l r s1 s2 => exact control_aluTerm .add l r s1 s2 s
  | sub l r s1 s2 => exact control_aluTerm .sub l r s1 s2 s
  | mul l r s1 s2 => exact control_aluTerm .mul l r s1 s2 s
  | div l r s1 s2 => exact control_aluTerm .div l r s1 s2 s
  | out => exact .next rfl rfl rfl nofun
  | lin => exact .next rfl rfl rfl nofun
  | bnz l s1 target => exact control_bnz l s1 target s

/-- Settles O42: no other case of the control takes `pc` elsewhere. -/
theorem onlyBnzTransfersControl : Obligations.OnlyBnzTransfersControl := by
  intro s t h hstay hnext
  obtain ⟨_, rfl⟩ | ⟨_, _, rfl⟩ | ⟨_, _, _, rfl⟩ | ⟨_, _, i, hd, hexec⟩ := step_cases h
  · exact absurd rfl hstay
  · exact absurd rfl hstay
  · exact absurd rfl hstay
  · cases exec_control hexec with
    | next hpc => exact absurd hpc hnext
    | fault _ hpc => exact absurd hpc hstay
    | branch l s1 target k hi hv hk hpc =>
      subst hi
      obtain ⟨htag, hlt, _⟩ := labelLookup_eq_some.1 hk
      rw [hpc, labelLookup_toNat hk]
      exact ⟨l, s1, target, hd, hv, hlt, htag⟩

/-! ### How a run ends -/

/-- Settles O41, one case of the step at a time. -/
theorem runsEndOnlyAtTheEndOrAtAHardError : Obligations.RunsEndOnlyAtTheEndOrAtAHardError := by
  intro s t hs hcause h
  obtain ⟨hne, _⟩ | ⟨_, hpc, rfl⟩ | ⟨_, hpc, hwhy, rfl⟩ | ⟨_, hpc, i, hd, hexec⟩ := step_cases h
  · exact absurd hs hne
  · simp [hcause, hpc, Nat.not_lt.2 hpc]
  · obtain ⟨why, hd⟩ := hwhy
    rw [ifetch] at hd
    simp [hpc, Nat.not_le.2 hpc, hd, causeOf]
  · rw [ifetch] at hd
    cases exec_control hexec with
    | next _ hst hca hdiv =>
      simpa [DividesByZero, hst, hca, hs, hcause, hpc, Nat.not_le.2 hpc, hd] using hdiv
    | branch _ _ _ _ hi _ _ _ hst hca => simp [hst, hca, hs, hcause, Nat.not_le.2 hpc, hd, hi]
    | fault hdiv _ hst hca => simpa [DividesByZero, hst, hca, hpc, Nat.not_le.2 hpc, hd] using hdiv

/-! ### Well-formed images (spec/30_encoding.md R112) -/

theorem loadedImage_of_step {s t : State} (h : step s = .next t) : loadedImage t = loadedImage s := by
  obtain ⟨himem, hlen, _⟩ := step_keepsProgramAndAppends h
  rw [loadedImage, loadedImage, himem, hlen]

/-- Every word below PROGLEN of a well-formed image decodes (R112 (2)). -/
theorem decode_ne_illegal_of_imageWellFormed {depth : Nat} {s : State}
    (h : imageWellFormed depth (loadedImage s) = true) {k : Nat} (hk : k < s.progLen.toNat) (why : IllegalWord) :
    decode (s.imem.read k) ≠ .illegal why := by
  intro hd
  simp only [imageWellFormed, Bool.and_eq_true, List.all_eq_true] at h
  obtain ⟨⟨_, hwords⟩, _⟩ := h
  have hword := hwords (s.imem.read k) (List.mem_map_of_mem (List.mem_range.2 hk))
  rw [wordWellFormed, hd] at hword
  cases hword

/-- Settles O45: the word at `pc` is one of the image's, and a step keeps the image. -/
theorem wellFormedImageNeverRaisesIllegalInstruction : Obligations.WellFormedImageNeverRaisesIllegalInstruction := by
  intro depth s t hwf hcause h
  refine ⟨?_, by rwa [loadedImage_of_step h]⟩
  obtain ⟨_, rfl⟩ | ⟨_, _, rfl⟩ | ⟨_, hpc, ⟨why, hd⟩, _⟩ | ⟨_, _, i, _, hexec⟩ := step_cases h
  · exact hcause
  · exact hcause
  · exact absurd hd (decode_ne_illegal_of_imageWellFormed hwf hpc why)
  · cases exec_control hexec with
    | next _ _ hca => rwa [hca]
    | branch _ _ _ _ _ _ _ _ _ hca => rwa [hca]
    | fault _ _ _ hca => simp [hca]

end Sys2Proof.Machine
end

section
/-! PROOFS. The invariants of the reachable states (spec/10_state.md R41) hold after reset, and every step and every clock
cycle keeps them; what reset clears (spec/70_reset_and_hazards.md R220). -/

namespace Sys2Proof.Machine

/-! ### A step keeps the invariants -/

theorem RunInvariant.fcause_of_not_faulted {s : State} (h : RunInvariant s) (hs : s.status ≠ .faulted) :
    s.fcause = .none :=
  not_not.1 (mt h.faultedIff.2 hs)

/-- An instruction of a running engine keeps the invariants: a branch lands below PROGLEN, and the next index is at most
PROGLEN. -/
theorem runInvariant_of_exec {i : Instr} {s t : State} (hinv : RunInvariant s) (hs : s.status = .running)
    (hpc : s.pc.toNat < s.progLen.toNat) (h : exec i s = .next t) : RunInvariant t := by
  obtain ⟨himem, hlen, _⟩ := exec_keepsProgramAndAppends h
  have hfits : t.progLen.toNat ≤ t.imem.depth := by
    rw [himem, hlen]
    exact hinv.lenBound (by simp [hs])
  have hnone : s.fcause = .none := hinv.fcause_of_not_faulted (by simp [hs])
  have hrunning (hst : t.status = s.status) (hca : t.fcause = s.fcause) (hle : t.pc.toNat ≤ t.progLen.toNat) :
      RunInvariant t := by
    rw [hs] at hst
    rw [hnone] at hca
    exact ⟨by simp [hst], fun _ => hle, fun _ => hfits, by simp [hst, hca], by simp [hst], by simp [hst]⟩
  cases exec_control h with
  | next hpc' hst hca =>
    refine hrunning hst hca ?_
    rw [hpc', hlen]
    bv_omega
  | branch _ _ _ k _ _ hk hpc' hst hca =>
    refine hrunning hst hca ?_
    rw [hpc', hlen, labelLookup_toNat hk]
    exact (labelLookup_lt hk).le
  | fault _ hpc' hst hca =>
    rw [← hpc', ← hlen] at hpc
    exact ⟨by simp [hst], fun _ => hpc.le, fun _ => hfits, by simp [hst, hca], by simp [hst], fun _ => hpc⟩

/-- Settles O35, one case of the step at a time. -/
theorem runInvariantIsKeptByEveryStep : Obligations.RunInvariantIsKeptByEveryStep := by
  intro s t hinv h
  obtain ⟨_, rfl⟩ | ⟨hs, hpc, rfl⟩ | ⟨hs, hpc, _, rfl⟩ | ⟨hs, hpc, i, _, hexec⟩ := step_cases h
  · exact hinv
  · have hbound := hinv.pcBound (by simp [hs])
    have hnone := hinv.fcause_of_not_faulted (by simp [hs])
    exact ⟨by simp, fun _ => hbound, fun _ => hinv.lenBound (by simp [hs]), by simp [hnone],
      fun _ => hbound.antisymm hpc, by simp⟩
  · exact ⟨by simp, fun _ => hpc.le, fun _ => hinv.lenBound (by simp [hs]), by simp [causeOf], by simp, fun _ => hpc⟩
  · exact runInvariant_of_exec hinv hs hpc hexec

/-! ### Reset (R220) -/

theorem mem_replicate_zero {n : Nat} : ∀ v ∈ List.replicate n (0 : Word), v = 0 := fun _ => List.eq_of_mem_replicate

theorem runInvariant_assertReset (s : State) : RunInvariant (assertReset s) :=
  ⟨fun _ => ⟨rfl, mem_replicate_zero, rfl⟩, by simp, by simp, by simp, by simp, by simp⟩

theorem assertReset_reset : assertReset State.reset = State.reset := by
  simp [assertReset, State.reset, nregs]

/-- Settles O37: the reset state is the reset of itself. -/
theorem runInvariantHoldsAtReset : Obligations.RunInvariantHoldsAtReset := by
  rw [Obligations.RunInvariantHoldsAtReset, ← assertReset_reset]
  exact runInvariant_assertReset _

/-- Settles O47. -/
theorem resetStateIsAFreshEngine : Obligations.ResetStateIsAFreshEngine :=
  ⟨List.length_replicate, mem_replicate_zero, rfl, rfl, rfl, rfl, rfl, rfl, assertReset_reset⟩

/-- A step of a running engine does not answer an idle one. -/
theorem step_status_ne_idle {s t : State} (hs : s.status = .running) (h : step s = .next t) : t.status ≠ .idle := by
  obtain ⟨hne, _⟩ | ⟨_, _, rfl⟩ | ⟨_, _, _, rfl⟩ | ⟨_, _, i, _, hexec⟩ := step_cases h
  · exact absurd hs hne
  · simp
  · simp
  · cases exec_control hexec with
    | next _ hst => simp [hst, hs]
    | branch _ _ _ _ _ _ _ _ hst => simp [hst, hs]
    | fault _ _ hst => simp [hst]

/-- Settles O46: a cycle with `rst` is a reset, and without it a cycle outside IDLE is a step. -/
theorem resetClearsAllButTheProgram : Obligations.ResetClearsAllButTheProgram := by
  intro p s t h
  refine ⟨fun hrst => ?_, fun hrst => ⟨fun hstopped => ?_, fun hs => ?_⟩⟩
  · obtain ⟨_, rfl⟩ | ⟨hno, _⟩ | ⟨hno, _⟩ := cycle_cases h
    · exact ⟨rfl, List.length_replicate, mem_replicate_zero, rfl, rfl, rfl, rfl, rfl⟩
    · simp [hrst] at hno
    · simp [hrst] at hno
  · have hidle : s.status ≠ .idle := by rintro hi; simp [hi] at hstopped
    have hrunning : s.status ≠ .running := by rintro hr; simp [hr] at hstopped
    rw [cycle_of_not_idle hrst hidle, step_of_not_running hrunning] at h
    cases h
    rfl
  · rw [cycle_of_not_idle hrst (by simp [hs])] at h
    exact ⟨h, step_status_ne_idle hs h⟩

/-! ### A clock cycle keeps the invariants -/

/-- A cycle of an idle engine: a load write does not touch the registers, `pc` or the log, and a start asks that the program
fits. -/
theorem runInvariant_of_idle_cycle {p : PortsIn} {s t : State} (hrst : p.rst = false) (hs : s.status = .idle)
    (hinv : RunInvariant s) (h : cycle p s = .next t) : RunInvariant t := by
  have hnone : s.fcause = .none := hinv.fcause_of_not_faulted (by simp [hs])
  obtain ⟨hpc, hregs, hev⟩ := hinv.idleFresh hs
  rw [cycle_of_idle hrst hs] at h
  cases h
  by_cases hstart : p.start = true ∧ (loadRequest p s).progLen.toNat ≤ (loadRequest p s).imem.depth
  · rw [statusAfterStart_eq_running hstart]
    exact ⟨by simp, by simp [hpc], fun _ => hstart.2, by simp [hnone], by simp, by simp⟩
  · rw [statusAfterStart, if_neg hstart]
    exact ⟨fun _ => by simpa [hpc, hev] using hregs, by simp, by simp, by simp [hnone], by simp, by simp⟩

/-- Settles O36: a cycle is a reset, a step, or what the host requests, which has no effect outside IDLE. -/
theorem runInvariantIsKeptByEveryCycle : Obligations.RunInvariantIsKeptByEveryCycle := by
  intro p s t hinv h
  obtain ⟨_, rfl⟩ | ⟨_, _, hstep⟩ | ⟨hrst, _, ht⟩ := cycle_cases h
  · exact runInvariant_assertReset s
  · exact runInvariantIsKeptByEveryStep s t hinv hstep
  · by_cases hs : s.status = .idle
    · exact runInvariant_of_idle_cycle hrst hs hinv h
    · rwa [ht, hostRequests_of_not_idle p hs]

end Sys2Proof.Machine
end

section
/-! PROOFS. The instruction memory (spec/10_state.md R31, R33): its canonical form is one form and every clock cycle keeps it,
and a well-formed image's lookup finds each label where it is. -/

namespace Sys2Proof.Machine

/-! ### The canonical form -/

/-- The order of the canonical form: the indices rise strictly. -/
abbrev IndexLT (c d : Nat × IWord) : Prop := c.1 < d.1

theorem risingAbove_iff {lo : Nat} {cells : List (Nat × IWord)} :
    risingAbove lo cells = true ↔ (∀ c ∈ cells, lo < c.1) ∧ cells.Pairwise IndexLT := by
  induction cells generalizing lo with
  | nil => simp [risingAbove]
  | cons c rest ih =>
    obtain ⟨a, w⟩ := c
    simp only [risingAbove, Bool.and_eq_true, decide_eq_true_eq, ih, List.forall_mem_cons, List.pairwise_cons]
    constructor
    · rintro ⟨hlo, habove, hpair⟩
      exact ⟨⟨hlo, fun c hc => hlo.trans (habove c hc)⟩, habove, hpair⟩
    · rintro ⟨⟨hlo, _⟩, habove, hpair⟩
      exact ⟨hlo, habove, hpair⟩

theorem rising_iff {cells : List (Nat × IWord)} : rising cells = true ↔ cells.Pairwise IndexLT := by
  cases cells with
  | nil => simp [rising]
  | cons c rest => rw [rising, risingAbove_iff, List.pairwise_cons]

/-- Where the indices rise, an entry is listed exactly when it is the word that the cells give its index. -/
theorem mem_iff_cellGet {cells : List (Nat × IWord)} (h : cells.Pairwise IndexLT) (c : Nat × IWord) :
    c ∈ cells ↔ cellGet cells c.1 = some c.2 := by
  induction cells with
  | nil => simp [cellGet]
  | cons d rest ih =>
    obtain ⟨a, w⟩ := d
    obtain ⟨i, v⟩ := c
    obtain ⟨habove, hrest⟩ := List.pairwise_cons.1 h
    rw [List.mem_cons, ih hrest, Prod.mk.injEq, cellGet]
    by_cases hi : i = a
    · subst hi
      have hnot : cellGet rest i ≠ some v := fun hv => absurd (habove _ ((ih hrest).2 hv)) (lt_irrefl i)
      simp [hnot, eq_comm]
    · simp [hi]

/-- Settles O13: rising cells with the same entries are the same list. -/
theorem canonicalMemoriesWithEqualEntriesAreEqual : Obligations.CanonicalMemoriesWithEqualEntriesAreEqual := by
  rintro ⟨depth, cells⟩ ⟨depth', cells'⟩ hwf hwf' hdepth hget
  simp only [Memory.wf, Bool.and_eq_true, rising_iff] at hwf hwf'
  have hasymm : Std.Asymm IndexLT := ⟨fun _ _ => lt_asymm⟩
  have hcells : cells = cells' := hwf.1.eq_of_mem_iff hwf'.1 fun c => by
    rw [mem_iff_cellGet hwf.1, mem_iff_cellGet hwf'.1, hget]
  rw [hcells, show depth = depth' from hdepth]

/-! ### Every cycle keeps it -/

/-- The host's requests touch the memory by the load write alone. -/
theorem hostRequests_imem (p : PortsIn) (s : State) : (hostRequests p s).imem = (loadRequest p s).imem := by
  by_cases hs : s.status = .idle
  · rw [hostRequests_of_idle p hs]
  · have hload : loadRequest p s = s := by simp [loadRequest, loadPort, hs]
    rw [hostRequests_of_not_idle p hs, hload]

theorem loadRequest_imem_canonical (p : PortsIn) {s : State} (h : s.imem.wf = true) :
    (loadRequest p s).imem.wf = true ∧ (loadRequest p s).imem.depth = s.imem.depth := by
  unfold loadRequest
  split
  · exact ⟨loadPort_imem_wf _ _ _ h, loadPort_depth ..⟩
  · exact ⟨h, rfl⟩

/-- Settles O14: of what a cycle can do, only the load write touches the memory. -/
theorem memoryStaysCanonicalInEveryCycle : Obligations.MemoryStaysCanonicalInEveryCycle := by
  intro p s t hwf h
  obtain ⟨_, rfl⟩ | ⟨_, _, hstep⟩ | ⟨_, _, rfl⟩ := cycle_cases h
  · exact ⟨hwf, rfl⟩
  · rw [(step_keepsProgramAndAppends hstep).imem]
    exact ⟨hwf, rfl⟩
  · rw [hostRequests_imem]
    exact loadRequest_imem_canonical p hwf

/-- Settles O15. -/
theorem resetMemoryIsCanonical : Obligations.ResetMemoryIsCanonical := rfl

/-! ### The labels of a well-formed image (R112 (4)) -/

theorem labelsDistinct_iff_nodup {ts : List Tag} : labelsDistinct ts = true ↔ ts.Nodup := by
  induction ts with
  | nil => simp [labelsDistinct]
  | cons t ts ih => simp [labelsDistinct, ih]

/-- The labels of the loaded image are the label table (R33). -/
theorem loadedImage_labels (s : State) :
    (loadedImage s).words.map lblField = (List.range s.progLen.toNat).map (labelAt · s) := by
  simp [loadedImage, labelAt]

/-- Settles O11: the labels are distinct, so the index that carries one is the lowest that does. -/
theorem lookupFindsEachLabelAtItsIndex : Obligations.LookupFindsEachLabelAtItsIndex := by
  intro depth s hwf k hk
  simp only [imageWellFormed, Bool.and_eq_true, labelsDistinct_iff_nodup, loadedImage_labels] at hwf
  obtain ⟨_, hdistinct⟩ := hwf
  refine labelLookup_eq_some.2 ⟨rfl, hk, fun j hj hsame => ?_⟩
  have hjk : j = k := List.inj_on_of_nodup_map hdistinct (List.mem_range.2 (hj.trans hk)) (List.mem_range.2 hk) hsame
  omega

end Sys2Proof.Machine
end

section
/-! PROOFS. The arithmetic of wrapping (spec/00_scope.md R8) and of the one division that overflows (spec/41_arithmetic.md
R135, R136). -/

namespace Sys2Proof.Machine

/-! ### Wrapping -/

theorem minInt_le_toInt (w : Word) : minInt ≤ w.toInt := BitVec.le_toInt w

theorem toInt_le_maxInt (w : Word) : w.toInt ≤ maxInt := Int.le_sub_one_of_lt (BitVec.toInt_lt (x := w))

/-- Settles O16: the balanced remainder modulo 2^32 is in range and congruent, and wrapping does not change what is in range. -/
theorem wrapIsTheCongruentValueInRange : Obligations.WrapIsTheCongruentValueInRange := by
  intro n
  refine ⟨minInt_le_toInt _, toInt_le_maxInt _, ?_, fun m hmin hmax hdvd => ?_⟩
  · rw [wrap_toInt]
    exact Int.dvd_self_sub_bmod
  · have hcongr : n.bmod (2 ^ 32) = m.bmod (2 ^ 32) := by
      rw [Int.bmod_eq_bmod_iff_bmod_sub_eq_zero]
      exact Int.bmod_eq_zero_of_dvd hdvd
    rw [wrap_toInt, hcongr, ← wrap_toInt, wrap_toInt_of_fits hmin hmax]

/-! ### The division that overflows -/

/-- A divisor other than 1 and -1 at least halves the magnitude. -/
theorem natAbs_tdiv_le_half (a : Int) {b : Int} (hb : 2 ≤ b.natAbs) : (tdiv a b).natAbs ≤ a.natAbs / 2 := by
  rw [tdiv_eq, Int.natAbs_tdiv]
  exact Nat.div_le_div_left hb (by omega)

/-- Settles O18, by the divisor: -1 negates, 1 keeps, and any other gives a quotient that fits. -/
theorem divisionOverflowsOnlyForMinByMinusOne : Obligations.DivisionOverflowsOnlyForMinByMinusOne := by
  intro a b hb
  have hzero := toInt_ne_zero hb
  have hmin := minInt_le_toInt a
  have hmax := toInt_le_maxInt a
  simp only [minInt, maxInt] at hmin hmax
  refine ⟨?_, fun ha hb' => by rw [ha, hb']; decide⟩
  by_cases hone : b.toInt.natAbs = 1
  · obtain hb1 | hb1 : b.toInt = 1 ∨ b.toInt = -1 := by omega
    · left
      rw [hb1, tdiv_eq, Int.tdiv_one]
      exact wrap_toInt_of_fits hmin hmax
    · rw [hb1, tdiv_eq, Int.tdiv_neg, Int.tdiv_one]
      by_cases ha : a.toInt = minInt
      · exact .inr ⟨ha, rfl⟩
      · rw [minInt] at ha
        exact .inl (wrap_toInt_of_fits (by rw [minInt]; omega) (by rw [maxInt]; omega))
  · have hhalf := natAbs_tdiv_le_half a.toInt (b := b.toInt) (by omega)
    exact .inl (wrap_toInt_of_fits (by rw [minInt]; omega) (by rw [maxInt]; omega))

end Sys2Proof.Machine
end

section
/-! PROOFS. The boot sequence and the output ports (spec/70_reset_and_hazards.md R222, R226, R229, R230). -/

namespace Sys2Proof.Machine

/-! ### Loading an image (R222 step 2) -/

/-- The memory with a list of words written, from an index on. -/
def writeWords : Nat → List IWord → Memory → Memory
  | _, [], m => m
  | i, w :: ws, m => writeWords (i + 1) ws (m.write i w)

@[simp] theorem writeWords_depth (i : Nat) (ws : List IWord) (m : Memory) : (writeWords i ws m).depth = m.depth := by
  induction ws generalizing i m with
  | nil => rfl
  | cons w ws ih => exact ih (i + 1) (m.write i w)

theorem read_writeWords_below {ws : List IWord} {i j : Nat} (m : Memory) (h : j < i) :
    (writeWords i ws m).read j = m.read j := by
  induction ws generalizing i m with
  | nil => rfl
  | cons w ws ih => rw [writeWords, ih _ (by omega), Memory.read_write_other m w (by omega)]

theorem read_writeWords {ws : List IWord} {i k : Nat} (m : Memory) (h : k < ws.length) :
    (writeWords i ws m).read (i + k) = ws[k] := by
  induction ws generalizing i k m with
  | nil => cases h
  | cons w ws ih =>
    rw [writeWords]
    cases k with
    | zero =>
      rw [read_writeWords_below _ (by omega), List.getElem_cons_zero]
      exact Memory.read_write_same m i w
    | succ k =>
      rw [List.getElem_cons_succ, ← ih (m.write i w) (Nat.lt_of_succ_lt_succ h), Nat.succ_add_eq_add_succ]

theorem loadPort_entry {s : State} {i : Nat} (w : IWord) (hs : s.status = .idle) (hi : i < s.imem.depth)
    (hd : s.imem.depth < 2 ^ 32) :
    loadPort false (BitVec.ofNat 32 i) w s = { s with imem := s.imem.write i w } := by
  have haddr : (BitVec.ofNat 32 i).toNat = i := by rw [BitVec.toNat_ofNat, Nat.mod_eq_of_lt (by omega)]
  simp [loadPort, hs, haddr, hi]

/-- The load writes of words that fit change the memory alone. -/
theorem loadWords_eq {ws : List IWord} {i : Nat} {s : State} (hs : s.status = .idle) (hfits : i + ws.length ≤ s.imem.depth)
    (hd : s.imem.depth < 2 ^ 32) : loadWords i ws s = { s with imem := writeWords i ws s.imem } := by
  induction ws generalizing i s with
  | nil => rfl
  | cons w ws ih =>
    rw [List.length_cons] at hfits
    have hrest : i + 1 + ws.length ≤ (s.imem.write i w).depth := by
      rw [Memory.write_depth]
      omega
    rw [loadWords, loadPort_entry w hs (by omega) hd]
    exact ih (s := { s with imem := s.imem.write i w }) hs hrest hd

theorem imageLen_toNat {img : Image} (h : img.words.length < 2 ^ 32) : (imageLen img).toNat = img.words.length := by
  rw [imageLen, BitVec.toNat_ofNat, Nat.mod_eq_of_lt h]

theorem loadPort_progLen {s : State} (n : PcWord) (hs : s.status = .idle) :
    loadPort true 0 (n.zeroExtend 192) s = { s with progLen := n } := by
  have hdata : (n.zeroExtend 192).extractLsb' 0 32 = n := by
    apply BitVec.eq_of_toNat_eq
    simp only [BitVec.extractLsb'_toNat, BitVec.truncate_eq_setWidth, BitVec.toNat_setWidth, Nat.shiftRight_zero]
    omega
  simp [loadPort, hs, hdata]

/-- The boot sequence of an image that fits: the state after reset with the image, running. -/
theorem boot_eq {img : Image} {s : State} (hfits : img.words.length ≤ s.imem.depth) (hd : s.imem.depth < 2 ^ 32) :
    boot img s =
      { assertReset s with
        imem := writeWords 0 img.words s.imem
        progLen := imageLen img
        status := .running } := by
  have hlen : (imageLen img).toNat ≤ s.imem.depth := by rwa [imageLen_toNat (by omega)]
  have hload : loadImage img (assertReset s) =
      { assertReset s with imem := writeWords 0 img.words s.imem, progLen := imageLen img } := by
    rw [loadImage, loadPort_progLen _ (assertReset_status s)]
    exact loadWords_eq (s := { assertReset s with progLen := imageLen img }) rfl (by simpa using hfits) hd
  simp [boot, hload, startPort, hlen]

/-- The words read back are those written. -/
theorem map_read_writeWords (ws : List IWord) (m : Memory) :
    (List.range ws.length).map (writeWords 0 ws m).read = ws := by
  refine List.ext_getElem (by simp) fun k _ hk => ?_
  rw [List.getElem_map, List.getElem_range, ← read_writeWords (i := 0) m hk, Nat.zero_add]

/-- Settles O50. -/
theorem bootStartsTheLoadedImage : Obligations.BootStartsTheLoadedImage := by
  intro img s hfits hdepth
  have hd : s.imem.depth < 2 ^ 32 := by omega
  have hlen : (imageLen img).toNat = img.words.length := imageLen_toNat (by omega)
  rw [boot_eq hfits hd]
  refine ⟨rfl, rfl, mem_replicate_zero, List.length_replicate, rfl, rfl, hlen, ?_⟩
  rw [loadedImage, hlen, map_read_writeWords]

/-! ### The output ports -/

/-- A list of at most one entry is its first entry. -/
theorem head?_toList_of_length_le_one {α : Type} {xs : List α} (h : xs.length ≤ 1) : xs.head?.toList = xs := by
  match xs, h with
  | [], _ => rfl
  | [_], _ => rfl

theorem outStream_cycleEvents_length {p : PortsIn} {s : State} (hrst : p.rst = false) :
    (outStream (cycleEvents p s)).length ≤ 1 := by
  have hevents : cycleEvents p s = (stepEffect s).new := by
    rw [cycleEvents_of_step hrst (step_eq_effect s)]
    exact List.drop_left
  obtain ⟨_, hone, _⟩ := stepEffect_reportsThenOutput s
  rwa [hevents]

/-- Settles O51: a cycle's events hold one `Out` at most, and the port shows the first. -/
theorem outputPortCarriesTheOutputStream : Obligations.OutputPortCarriesTheOutputStream := by
  intro p s t hrst h
  obtain ⟨hev, _⟩ := cycle_ev hrst h
  have hshown : (outputs p s).outData.toList = outStream (cycleEvents p s) :=
    head?_toList_of_length_le_one (outStream_cycleEvents_length hrst)
  have hgrows : outStream t.ev = outStream s.ev ++ (outputs p s).outData.toList := by
    rw [hev, outStream_append, hshown]
  refine ⟨hgrows, ?_⟩
  rw [hgrows, outValid]
  cases (outputs p s).outData with
  | none => simp
  | some v => simp

theorem statusCode_injective : Function.Injective statusCode := by
  intro a b
  cases a <;> cases b <;> decide

theorem fcauseCode_injective : Function.Injective fcauseCode := by
  intro a b
  cases a <;> cases b <;> decide

/-- Settles O53: the codes of R34 and R35 are one to one. -/
theorem statusPortsShowTheRegisters : Obligations.StatusPortsShowTheRegisters := by
  intro p s
  have hstatus (st : Status) : (outputs p s).status = statusCode st ↔ s.status = st := statusCode_injective.eq_iff
  have hfcause (c : FCause) : (outputs p s).fcause = fcauseCode c ↔ s.fcause = c := fcauseCode_injective.eq_iff
  exact ⟨rfl, hstatus .idle, hstatus .running, hstatus .halted, hstatus .faulted, hfcause .none,
    hfcause .divisionByZero, hfcause .illegalInstruction, rfl⟩

end Sys2Proof.Machine
end

section
/-! PROOFS. Label tags and names (spec/30_encoding.md section 2, R74, R103): the bytes of a name's tag are the name, padded
with zero bytes, and so are the bytes of every tag that the well-formedness check of R112 (3) accepts. -/

namespace Sys2Proof.Machine

/-! ### The bytes of a tag -/

/-- The tag of eight bytes, the most significant first (R74). -/
def tagOfBytes (f : Nat → Byte) : Tag := f 0 ++ f 1 ++ f 2 ++ f 3 ++ f 4 ++ f 5 ++ f 6 ++ f 7

/-- Each byte of a concatenation is the byte it was made of. -/
theorem extract_byte (b0 b1 b2 b3 b4 b5 b6 b7 : Byte) :
    let t := b0 ++ b1 ++ b2 ++ b3 ++ b4 ++ b5 ++ b6 ++ b7
    t.extractLsb' 56 8 = b0 ∧ t.extractLsb' 48 8 = b1 ∧ t.extractLsb' 40 8 = b2 ∧ t.extractLsb' 32 8 = b3 ∧
    t.extractLsb' 24 8 = b4 ∧ t.extractLsb' 16 8 = b5 ∧ t.extractLsb' 8 8 = b6 ∧ t.extractLsb' 0 8 = b7 := by
  simp (disch := omega) only [extract_append_high, extract_append_low]
  exact ⟨extract_all b0, extract_all b1, extract_all b2, extract_all b3, extract_all b4, extract_all b5, extract_all b6,
    extract_all b7⟩

theorem tagBytes_tagOfBytes (f : Nat → Byte) : tagBytes (tagOfBytes f) = (List.range 8).map f := by
  obtain ⟨h0, h1, h2, h3, h4, h5, h6, h7⟩ := extract_byte (f 0) (f 1) (f 2) (f 3) (f 4) (f 5) (f 6) (f 7)
  rw [tagBytes, tagOfBytes, h0, h1, h2, h3, h4, h5, h6, h7]
  rfl

/-- A tag is made of its own bytes. -/
theorem tagOfBytes_tagBytes (t : Tag) : tagOfBytes ((tagBytes t).getD · 0) = t := by
  have h1 : t.extractLsb' 56 8 ++ t.extractLsb' 48 8 = t.extractLsb' 48 16 := extract_append_extract t 48 8 8
  have h2 : t.extractLsb' 48 16 ++ t.extractLsb' 40 8 = t.extractLsb' 40 24 := extract_append_extract t 40 16 8
  have h3 : t.extractLsb' 40 24 ++ t.extractLsb' 32 8 = t.extractLsb' 32 32 := extract_append_extract t 32 24 8
  have h4 : t.extractLsb' 32 32 ++ t.extractLsb' 24 8 = t.extractLsb' 24 40 := extract_append_extract t 24 32 8
  have h5 : t.extractLsb' 24 40 ++ t.extractLsb' 16 8 = t.extractLsb' 16 48 := extract_append_extract t 16 40 8
  have h6 : t.extractLsb' 16 48 ++ t.extractLsb' 8 8 = t.extractLsb' 8 56 := extract_append_extract t 8 48 8
  have h7 : t.extractLsb' 8 56 ++ t.extractLsb' 0 8 = t.extractLsb' 0 64 := extract_append_extract t 0 56 8
  have hbytes : tagOfBytes ((tagBytes t).getD · 0) = t.extractLsb' 56 8 ++ t.extractLsb' 48 8 ++ t.extractLsb' 40 8 ++
      t.extractLsb' 32 8 ++ t.extractLsb' 24 8 ++ t.extractLsb' 16 8 ++ t.extractLsb' 8 8 ++ t.extractLsb' 0 8 := rfl
  rw [hbytes, h1, h2, h3, h4, h5, h6, h7]
  exact extract_all t

/-! ### Padding with zero bytes -/

/-- The bytes of a name are not zero (R74). -/
abbrev NonZeroBytes (n : Name) : Prop := ∀ b ∈ n, b ≠ 0#8

theorem takeWhile_append_zeros {n : Name} (hn : NonZeroBytes n) (k : Nat) :
    (n ++ List.replicate k 0).takeWhile (· ≠ 0) = n := by
  rw [List.takeWhile_append_of_pos (by simpa [NonZeroBytes] using hn)]
  simp

theorem zeroPadded_append_zeros {n : Name} (hn : NonZeroBytes n) (k : Nat) :
    zeroPadded (n ++ List.replicate k 0) = true := by
  induction n with
  | nil =>
    induction k with
    | zero => rfl
    | succ k ih => simpa [List.replicate_succ, zeroPadded] using ih
  | cons b bs ih =>
    obtain ⟨hb, hbs⟩ := List.forall_mem_cons.1 hn
    rw [List.cons_append, zeroPadded, ih hbs]
    simp [hb]

/-- A list of bytes that passes the check is its bytes before the first zero byte, padded. -/
theorem eq_append_zeros_of_zeroPadded {bs : List Byte} (h : zeroPadded bs = true) :
    bs = bs.takeWhile (· ≠ 0) ++ List.replicate (bs.length - (bs.takeWhile (· ≠ 0)).length) 0 := by
  induction bs with
  | nil => rfl
  | cons b bs ih =>
    simp only [zeroPadded, Bool.and_eq_true, Bool.or_eq_true, decide_eq_true_eq, List.all_eq_true] at h
    obtain ⟨hb, hbs⟩ := h
    by_cases hzero : b = 0#8
    · have hrest : ∀ c ∈ bs, c = 0 := hb.resolve_left (not_not_intro hzero)
      simpa [hzero, List.replicate_succ] using List.eq_replicate_iff.2 ⟨rfl, hrest⟩
    · simpa [hzero] using ih hbs

theorem getD_append_zeros (n : Name) (j k : Nat) : (n ++ List.replicate j 0).getD k 0 = n.getD k 0 := by
  by_cases hk : k < n.length
  · exact List.getD_append _ _ _ _ hk
  · have hlen := Nat.le_of_not_lt hk
    rw [List.getD_append_right _ _ _ _ hlen, List.getD_eq_default _ _ hlen, List.getD_eq_getElem?_getD,
      List.getElem?_getD_replicate_default_eq]

theorem map_nameByte {n : Name} (h : n.length ≤ 8) :
    (List.range 8).map (nameByte n) = n ++ List.replicate (8 - n.length) 0 := by
  refine List.ext_getElem (by simp [h]) fun k _ hk => ?_
  rw [List.getElem_map, List.getElem_range, nameByte, ← getD_append_zeros n (8 - n.length), List.getD_eq_getElem _ _ hk]

/-! ### The tag of a name -/

/-- A name that has a tag (R74, R103). -/
def HasTag (n : Name) : Prop := 1 ≤ n.length ∧ n.length ≤ 8 ∧ NonZeroBytes n

theorem tagOfName_eq_some {n : Name} {t : Tag} : tagOfName n = some t ↔ HasTag n ∧ tagOfBytes (nameByte n) = t := by
  simp [tagOfName, HasTag, NonZeroBytes, tagOfBytes, and_assoc]

theorem tagBytes_of_tagOfName {n : Name} {t : Tag} (h : tagOfName n = some t) :
    tagBytes t = n ++ List.replicate (8 - n.length) 0 := by
  obtain ⟨⟨_, hlen, _⟩, rfl⟩ := tagOfName_eq_some.1 h
  rw [tagBytes_tagOfBytes, map_nameByte hlen]

theorem nameOfTag_of_tagOfName {n : Name} {t : Tag} (h : tagOfName n = some t) : nameOfTag t = n := by
  obtain ⟨⟨_, _, hn⟩, _⟩ := tagOfName_eq_some.1 h
  rw [nameOfTag, tagBytes_of_tagOfName h, takeWhile_append_zeros hn]

/-- Settles O7: a tag spells its name, so equal tags have equal names. -/
theorem tagEqualityIsNameEquality : Obligations.TagEqualityIsNameEquality := by
  refine ⟨fun n => ?_, fun a b ta tb ha hb => ⟨?_, ?_⟩⟩
  · rw [Option.isSome_iff_exists]
    simp only [tagOfName_eq_some, exists_and_left, exists_eq', and_true]
    rfl
  · rintro rfl
    rw [← nameOfTag_of_tagOfName ha, nameOfTag_of_tagOfName hb]
  · rintro rfl
    exact Option.some.inj (ha.symm.trans hb)

theorem isNameTag_iff {t : Tag} : isNameTag t = true ↔ (tagBytes t).head? ≠ some 0 ∧ zeroPadded (tagBytes t) = true := by
  simp [isNameTag, tagBytes]

theorem isNameTag_of_tagOfName {n : Name} {t : Tag} (h : tagOfName n = some t) : isNameTag t = true := by
  obtain ⟨⟨hpos, _, hn⟩, _⟩ := tagOfName_eq_some.1 h
  rw [isNameTag_iff, tagBytes_of_tagOfName h]
  refine ⟨?_, zeroPadded_append_zeros hn _⟩
  cases n with
  | nil => cases hpos
  | cons b bs => simpa using hn b List.mem_cons_self

theorem tagOfName_nameOfTag {t : Tag} (h : isNameTag t = true) : tagOfName (nameOfTag t) = some t := by
  obtain ⟨hfirst, hpadded⟩ := isNameTag_iff.1 h
  have hspell : tagBytes t = nameOfTag t ++ List.replicate (8 - (nameOfTag t).length) 0 :=
    eq_append_zeros_of_zeroPadded hpadded
  have hlen : (nameOfTag t).length ≤ 8 := (List.takeWhile_sublist _).length_le
  have hpos : 1 ≤ (nameOfTag t).length := by
    by_contra hzero
    have hempty : nameOfTag t = [] := List.eq_nil_of_length_eq_zero (by omega)
    exact hfirst (by rw [hspell, hempty]; rfl)
  have hnonzero : NonZeroBytes (nameOfTag t) := fun b hb => by simpa using List.mem_takeWhile_imp hb
  have hbytes : nameByte (nameOfTag t) = ((tagBytes t).getD · 0) := by
    funext k
    rw [nameByte, hspell, getD_append_zeros]
  exact tagOfName_eq_some.2 ⟨⟨hpos, hlen, hnonzero⟩, by rw [hbytes, tagOfBytes_tagBytes]⟩

/-- Settles O8. -/
theorem nameTagsSpellTheirNames : Obligations.NameTagsSpellTheirNames :=
  fun _ => ⟨tagOfName_nameOfTag, fun _ h => ⟨isNameTag_of_tagOfName h, nameOfTag_of_tagOfName h⟩⟩

end Sys2Proof.Machine
end

section
/-! PROOFS. The assembler's text (spec/30_encoding.md R90 to R93, R95, R111): a decimal spelling reads back, a line splits into
the tokens it was written from, and a program written out line by line is translated to itself. -/

namespace Sys2Proof.Machine

/-! ### Decimal spelling -/

theorem digitValue_digitByte {d : Nat} (h : d < 10) : digitValue (digitByte d) = some d := by
  interval_cases d <;> decide

theorem digitByte_ne_minus {d : Nat} (h : d < 10) : digitByte d ≠ 0x2D := by
  interval_cases d <;> decide

theorem digitByte_not_space {d : Nat} (h : d < 10) : isSpace (digitByte d) = false := by
  interval_cases d <;> decide

theorem digitsFrom_concat {acc m d : Nat} {bs : List Byte} {b : Byte} (hbs : digitsFrom acc bs = some m)
    (hb : digitValue b = some d) : digitsFrom acc (bs ++ [b]) = some (m * 10 + d) := by
  induction bs generalizing acc with
  | nil =>
    cases hbs
    simp [digitsFrom, hb]
  | cons c cs ih =>
    rw [List.cons_append, digitsFrom]
    rw [digitsFrom] at hbs
    split at hbs
    next => exact ih hbs
    next => cases hbs

/-- Every byte of a spelling is a digit. -/
theorem mem_decimalDigits {fuel n : Nat} {b : Byte} (h : b ∈ decimalDigits fuel n) : ∃ d < 10, b = digitByte d := by
  induction fuel generalizing n with
  | zero => cases h
  | succ fuel ih =>
    rw [decimalDigits] at h
    split at h
    next hn => exact ⟨n, hn, List.mem_singleton.1 h⟩
    next =>
      obtain hb | hb := List.mem_append.1 h
      · exact ih hb
      · exact ⟨n % 10, Nat.mod_lt _ (by decide), List.mem_singleton.1 hb⟩

theorem digitsFrom_decimalDigits {fuel n : Nat} (h : n < fuel) : digitsFrom 0 (decimalDigits fuel n) = some n := by
  induction fuel generalizing n with
  | zero => cases h
  | succ fuel ih =>
    rw [decimalDigits]
    split
    next hn => simp [digitsFrom, digitValue_digitByte hn]
    next hn =>
      rw [digitsFrom_concat (ih (by omega)) (digitValue_digitByte (Nat.mod_lt n (by decide)))]
      exact congrArg some (Nat.div_add_mod' n 10)

theorem decimalNat_ne_nil (n : Nat) : decimalNat n ≠ [] := by
  rw [decimalNat, decimalDigits]
  split <;> simp

theorem parseNat_decimalNat (n : Nat) : parseNat (decimalNat n) = some n := by
  have hread : digitsFrom 0 (decimalNat n) = some n := digitsFrom_decimalDigits (Nat.lt_succ_self n)
  cases hbs : decimalNat n with
  | nil => exact absurd hbs (decimalNat_ne_nil n)
  | cons b bs => rwa [hbs] at hread

/-- A spelling without a sign is read as a natural number. -/
theorem parseInt_decimalNat (n : Nat) : parseInt (decimalNat n) = some (n : Int) := by
  have hread := parseNat_decimalNat n
  cases hbs : decimalNat n with
  | nil => exact absurd hbs (decimalNat_ne_nil n)
  | cons b bs =>
    have hmem : b ∈ decimalNat n := hbs ▸ List.mem_cons_self
    obtain ⟨d, hd, rfl⟩ := mem_decimalDigits hmem
    rw [hbs] at hread
    rw [parseInt, if_neg (digitByte_ne_minus hd), hread]
    rfl

/-- Settles O55, by the sign. -/
theorem decimalSpellingReadsBack : Obligations.DecimalSpellingReadsBack := by
  intro n
  rw [decimalInt]
  split
  next hneg =>
    have hn : -(n.natAbs : Int) = n := by omega
    rw [parseInt, if_pos rfl, parseNat_decimalNat]
    exact congrArg some hn
  next hnonneg =>
    have hn : (n.natAbs : Int) = n := by omega
    rw [parseInt_decimalNat, hn]

theorem parseWord_decimalInt (w : Word) : parseWord (decimalInt w.toInt) = some w := by
  rw [parseWord, decimalSpellingReadsBack]
  simp only [minInt_le_toInt, toInt_le_maxInt, and_self, if_true, BitVec.ofInt_toInt]

/-! ### Tokens (R90) -/

theorem isTokenName_decimalInt (n : Int) : isTokenName (decimalInt n) := by
  have hnat : isTokenName (decimalNat n.natAbs) := by
    refine ⟨decimalNat_ne_nil _, fun b hb => ?_⟩
    obtain ⟨d, hd, rfl⟩ := mem_decimalDigits hb
    exact digitByte_not_space hd
  rw [decimalInt]
  split
  · exact ⟨by simp, List.forall_mem_cons.2 ⟨by decide, hnat.2⟩⟩
  · exact hnat

theorem isTokenName_mnemonicBytes (o : Opcode) : isTokenName (mnemonicBytes o) := by
  cases o <;> exact ⟨by decide, by decide⟩

theorem isSpace_space : isSpace 0x20 = true := by decide

theorem tokens_of_space {b : Byte} (hb : isSpace b = true) (bs : List Byte) : tokens (b :: bs) = tokens bs := by
  rw [tokens.eq_def]
  exact if_pos hb

/-- A line, or its rest after a token: it ends there or goes on with whitespace. -/
def EndsToken : List Byte → Prop
  | [] => True
  | b :: _ => isSpace b = true

theorem tokens_append {t : Token} {rest : List Byte} (ht : isTokenName t) (hrest : EndsToken rest) :
    tokens (t ++ rest) = t :: tokens rest := by
  obtain ⟨hne, hspace⟩ := ht
  induction t with
  | nil => exact absurd rfl hne
  | cons b bs ih =>
    obtain ⟨hb, hbs⟩ := List.forall_mem_cons.1 hspace
    cases bs with
    | nil =>
      cases rest with
      | nil => simp [tokens, hb]
      | cons c cs =>
        have hc : isSpace c = true := hrest
        simp [tokens, hb, hc]
    | cons c cs =>
      have hc : isSpace c = false := hbs c List.mem_cons_self
      have hrec := ih (by simp) hbs
      rw [List.cons_append] at hrec
      rw [List.cons_append, List.cons_append, tokens, hrec]
      simp [hb, hc]

theorem endsToken_flatMap_spaced (ts : List Token) : EndsToken (ts.flatMap spaced) := by
  cases ts with
  | nil => trivial
  | cons t ts => exact isSpace_space

/-- A token, then tokens with a space before each, splits into these tokens. -/
theorem tokens_spaced {t : Token} {ts : List Token} (ht : isTokenName t) (hts : ∀ u ∈ ts, isTokenName u) :
    tokens (t ++ ts.flatMap spaced) = t :: ts := by
  induction ts generalizing t with
  | nil => simpa [tokens] using tokens_append (rest := []) ht trivial
  | cons u us ih =>
    obtain ⟨hu, hus⟩ := List.forall_mem_cons.1 hts
    have hskip : tokens ((u :: us).flatMap spaced) = tokens (u ++ us.flatMap spaced) :=
      tokens_of_space isSpace_space _
    rw [tokens_append ht (endsToken_flatMap_spaced _), hskip, ih hu hus]

/-! ### A written line is translated to its instruction -/

/-- The operand tokens of an instruction (R92). -/
def operandTokens : SrcInstr → List Token
  | .add _ r s1 s2 => [decimalInt r.toInt, decimalInt s1.toInt, decimalInt s2.toInt]
  | .sub _ r s1 s2 => [decimalInt r.toInt, decimalInt s1.toInt, decimalInt s2.toInt]
  | .mul _ r s1 s2 => [decimalInt r.toInt, decimalInt s1.toInt, decimalInt s2.toInt]
  | .div _ r s1 s2 => [decimalInt r.toInt, decimalInt s1.toInt, decimalInt s2.toInt]
  | .out _ s1 => [decimalInt s1.toInt]
  | .lin _ r x => [decimalInt r.toInt, decimalInt x.toInt]
  | .bnz _ s1 target => [decimalInt s1.toInt, target]

theorem describeOperands_eq (i : SrcInstr) : describeOperands i = (operandTokens i).flatMap spaced := by
  cases i <;> simp [describeOperands, operandTokens, spacedInt]

theorem sourceLine_eq (i : SrcInstr) :
    sourceLine i = srcLabel i ++ (mnemonicBytes (srcOpcode i) :: operandTokens i).flatMap spaced := by
  simp [sourceLine, describeOperands_eq, spaced]

theorem isTokenName_of_mem_operandTokens {i : SrcInstr} (hi : hasTokenNames i) : ∀ t ∈ operandTokens i, isTokenName t := by
  obtain ⟨_, htarget⟩ := hi
  cases i with
  | bnz l s1 target => simpa [operandTokens, isTokenName_decimalInt] using htarget l s1 target rfl
  | _ => simp [operandTokens, isTokenName_decimalInt]

theorem tokens_sourceLine {i : SrcInstr} (hi : hasTokenNames i) :
    tokens (sourceLine i) = srcLabel i :: mnemonicBytes (srcOpcode i) :: operandTokens i := by
  rw [sourceLine_eq]
  exact tokens_spaced hi.1
    (List.forall_mem_cons.2 ⟨isTokenName_mnemonicBytes _, isTokenName_of_mem_operandTokens hi⟩)

theorem opcodeOfToken_mnemonicBytes (o : Opcode) : opcodeOfToken (mnemonicBytes o) = some o := by
  cases o <;> decide

theorem buildInstr_operandTokens (i : SrcInstr) : buildInstr (srcOpcode i) (srcLabel i) (operandTokens i) = .ok i := by
  cases i <;>
    simp [buildInstr, operandTokens, srcOpcode, srcLabel, arity, splitOperands, parseWords, parseWord_decimalInt, srcOf]

theorem translateLine_sourceLine {prog : List SrcInstr} {i : SrcInstr} (hi : hasTokenNames i)
    (hnew : srcLabel i ∉ labelTable prog) : translateLine prog (sourceLine i) = .ok i := by
  simp [translateLine, tokens_sourceLine hi, labelIndex_eq_none.2 hnew, opcodeOfToken_mnemonicBytes,
    buildInstr_operandTokens]

theorem translateFrom_sourceLines {prog rest : List SrcInstr} (hnames : ∀ i ∈ rest, hasTokenNames i)
    (hnd : (labelTable (prog ++ rest)).Nodup) : translateFrom prog (rest.map sourceLine) = .ok (prog ++ rest) := by
  induction rest generalizing prog with
  | nil => simp [translateFrom]
  | cons i rest ih =>
    obtain ⟨hi, hrest⟩ := List.forall_mem_cons.1 hnames
    have hnew : srcLabel i ∉ labelTable prog := fun hmem => by
      rw [labelTable, List.map_append, List.nodup_append] at hnd
      obtain ⟨_, _, hdisjoint⟩ := hnd
      exact hdisjoint _ hmem _ List.mem_cons_self rfl
    have hsnoc : prog ++ i :: rest = (prog ++ [i]) ++ rest := by simp
    rw [hsnoc] at hnd ⊢
    exact translateFrom_cons_ok.2 ⟨i, translateLine_sourceLine hi hnew, ih hrest hnd⟩

/-- Settles O56, by induction on the program: the labels before a line do not hold its own. -/
theorem writtenProgramTranslatesToItself : Obligations.WrittenProgramTranslatesToItself :=
  fun _ hnames hnd => translateFrom_sourceLines (prog := []) hnames hnd

end Sys2Proof.Machine
end

section
/-! PROOFS. The emission of an image (spec/30_encoding.md R103, R110): every image the assembler answers is well formed
(R112). -/

namespace Sys2Proof.Machine

/-! ### The emission of an instruction -/

theorem emitTag_eq_ok {n : Name} {t : Tag} : emitTag n = .ok t ↔ tagOfName n = some t := by
  unfold emitTag
  cases tagOfName n <;> simp

/-- The word of a source instruction: its label is the tag of the instruction's label, and it is well formed
(R112 (2), (3), (5)). -/
def IsWordOf (i : SrcInstr) (w : IWord) : Prop := tagOfName (srcLabel i) = some (lblField w) ∧ wordWellFormed w = true

theorem lblField_encode (i : Instr) : lblField (encode i) = i.lbl := by
  cases i with
  | add l r s1 s2 => exact Laws.LabelField.add l r s1 s2
  | sub l r s1 s2 => exact Laws.LabelField.sub l r s1 s2
  | mul l r s1 s2 => exact Laws.LabelField.mul l r s1 s2
  | div l r s1 s2 => exact Laws.LabelField.div l r s1 s2
  | out l s1 => exact Laws.LabelField.out l s1
  | lin l r x => exact Laws.LabelField.lin l r x
  | bnz l s1 t => exact Laws.LabelField.bnz l s1 t

theorem wordWellFormed_encode (i : Instr) : wordWellFormed (encode i) = i.wellFormed := by
  rw [wordWellFormed, decodeOfEncodeIsTheInstruction]

theorem isWordOf_emitInstr {i : SrcInstr} {t : Instr} (h : emitInstr i = .ok t) : IsWordOf i (encode t) := by
  rw [IsWordOf, lblField_encode, wordWellFormed_encode]
  unfold emitInstr at h
  split at h
  next => cases h
  next l hl =>
    have htag := emitTag_eq_ok.1 hl
    have hname := isNameTag_of_tagOfName htag
    cases i with
    | bnz l' s1 target =>
      simp only at h
      split at h
      next => cases h
      next t' ht =>
        cases h
        have htarget := isNameTag_of_tagOfName (emitTag_eq_ok.1 ht)
        exact ⟨htag, by simp [Instr.wellFormed, hname, htarget]⟩
    | _ =>
      cases h
      exact ⟨htag, hname⟩

/-! ### The emission of an image -/

theorem isWordOf_emitWords {prog : List SrcInstr} {ws : List IWord} (h : emitWords prog = .ok ws) :
    List.Forall₂ IsWordOf prog ws := by
  induction prog generalizing ws with
  | nil =>
    cases h
    exact .nil
  | cons i rest ih =>
    unfold emitWords at h
    split at h
    next => cases h
    next t ht =>
      split at h
      next => cases h
      next ws' hws =>
        cases h
        exact .cons (isWordOf_emitInstr ht) (ih hws)

theorem wordsWellFormed_of_forall₂ {prog : List SrcInstr} {ws : List IWord} (h : List.Forall₂ IsWordOf prog ws) :
    ws.all wordWellFormed = true := by
  induction h with
  | nil => rfl
  | cons hword _ ih =>
    obtain ⟨_, hwf⟩ := hword
    rw [List.all_cons, hwf, ih, Bool.and_true]

/-- The labels of the words spell the Label Table (R107). -/
theorem names_of_forall₂ {prog : List SrcInstr} {ws : List IWord} (h : List.Forall₂ IsWordOf prog ws) :
    (ws.map lblField).map nameOfTag = labelTable prog := by
  induction h with
  | nil => rfl
  | cons hword _ ih =>
    obtain ⟨htag, _⟩ := hword
    rw [List.map_cons, List.map_cons, ih, nameOfTag_of_tagOfName htag]
    rfl

/-- Tags tell names apart, so distinct names have distinct tags (R112 (4)). -/
theorem labelsDistinct_of_forall₂ {prog : List SrcInstr} {ws : List IWord} (h : List.Forall₂ IsWordOf prog ws)
    (hnd : (labelTable prog).Nodup) : labelsDistinct (ws.map lblField) = true := by
  rw [labelsDistinct_iff_nodup]
  exact List.Nodup.of_map nameOfTag (names_of_forall₂ h ▸ hnd)

theorem assemble_ok {depth : Nat} {source : Option (List (List Byte))} {img : Image}
    (h : assemble depth source = .ok img) :
    ∃ lines prog, translateFrom [] lines = .ok prog ∧ prog.length ≤ depth ∧ emitWords prog = .ok img.words := by
  unfold assemble at h
  split at h
  next => cases h
  next prog htr =>
    cases source with
    | none => cases htr
    | some lines =>
      unfold emitImage at h
      split at h
      next hlen =>
        split at h
        next => cases h
        next ws hws =>
          cases h
          exact ⟨lines, prog, htr, hlen, hws⟩
      next => cases h

/-- Settles O54: the words are encodings of instructions with name tags, one per line, and the labels of the lines are
distinct. -/
theorem assembledImageIsWellFormed : Obligations.AssembledImageIsWellFormed := by
  intro depth source img h
  obtain ⟨lines, prog, htranslate, hlen, hwords⟩ := assemble_ok h
  have hws := isWordOf_emitWords hwords
  have hnd := nodup_labelTable_of_translateFrom htranslate List.nodup_nil
  simp [imageWellFormed, ← hws.length_eq, hlen, wordsWellFormed_of_forall₂ hws, labelsDistinct_of_forall₂ hws hnd]

end Sys2Proof.Machine
end
